-- ==== Sys2Proof/Word.lean ====
section
/-! DEFINITION. The word types of the block's transaction interface (00_scope.md R7, R8). -/

namespace Sys2Proof

/-- A byte of a string operand, of OSTR, of a table or of an entropy answer. -/
abbrev Byte := BitVec 8

/-- The 32-bit command word CMD (30_encoding.md R70). -/
abbrev Word := BitVec 32

/-- A 64-bit unsigned value: A, B, R and a clock sample (00_scope.md R8, 30_encoding.md R75). -/
abbrev U64 := BitVec 64

/-- `MAX = 2^64 - 1` (40_codec.md R100). -/
abbrev maxU64 : Nat := 18446744073709551615

end Sys2Proof
end

