-- ==== Sys2Proof/Config.lean ====
section
/-! DEFINITION. What is fixed when an instance of the block is built: the constants of 00_scope.md R6 and the
build-time parameter PACK_UNDERFLOW (10_state.md R31, R44). -/

namespace Sys2Proof

/-- The two builds of PACK_UNDERFLOW (00_scope.md R7, 41_bitpacker.md R143). -/
inductive PackUnderflow where
  /-- a time below EPOCH_MS ends the command with STATUS = TIME_UNDERFLOW -/
  | error
  /-- the two's-complement difference mod 2^64 is packed -/
  | wrap
deriving DecidableEq, Repr, Inhabited

namespace Config

/-- PACK_UNDERFLOW of this instance: a parameter with no value here, so that a claim holds for both builds
(41_bitpacker.md R143; log entry 7). -/
opaque packUnderflow : PackUnderflow

/-- `BASE = 58` (00_scope.md R6). -/
abbrev base : Nat := 58

/-- `LEN = 11` characters (00_scope.md R6). -/
abbrev len : Nat := 11

/-- `EPOCH_MS`, milliseconds since the Unix epoch (00_scope.md R6). -/
abbrev epochMs : Nat := 1321009871111

end Config
end Sys2Proof
end

