-- ==== Sys2Proof/Syntax.lean ====
section
/-! DEFINITION. The commands, one constructor for each row of spec/opcode_table.json (30_encoding.md R71).
The operand fields are those the command word itself carries; A, B and S travel beside it (10_state.md R25). -/

namespace Sys2Proof

/-- One command. `slen` is SLEN and `nbits` is NBITS, naturals as 30_encoding.md R74 reads them. -/
inductive Instr where
  | encode
  | decode (slen : Nat)
  | isValidPartial (slen : Nat)
  | isValid (slen : Nat)
  | decodePartial (slen : Nat)
  | pack
  | xid
  | xidString
  | timepoint
  | timestamp
  | randomBits (nbits : Nat)
  | random
  | randomString
deriving DecidableEq, Repr

end Sys2Proof
end

