-- ==== Sys2Proof/WellFormed.lean ====
section
/-! DEFINITION. The commands a 32-bit command word can carry: SLEN has 8 bits and NBITS has 7
(30_encoding.md R70, R74). -/

namespace Sys2Proof

/-- SLEN is a natural 0..255 and NBITS a natural 0..127 (30_encoding.md R74). The values 65..127 of NBITS are
well formed: they are encodable, and RANDOM_BITS answers them with RANGE_ERROR (42_randomness.md R181). -/
abbrev Instr.WellFormed : Instr → Prop
  | .encode => True
  | .decode slen => slen ≤ 255
  | .isValidPartial slen => slen ≤ 255
  | .isValid slen => slen ≤ 255
  | .decodePartial slen => slen ≤ 255
  | .pack => True
  | .xid => True
  | .xidString => True
  | .timepoint => True
  | .timestamp => True
  | .randomBits nbits => nbits ≤ 127
  | .random => True
  | .randomString => True

end Sys2Proof
end

