-- ==== Sys2Proof/Decode.lean ====
section
/-! DEFINITION. The command word: its fields, its decoder, its encoder and the opcode table
(30_encoding.md R70 to R74, R83, R84, R87). -/

namespace Sys2Proof

/-- Why a command word is illegal (30_encoding.md R73, R83). The names are the model's: the block answers every
one with STATUS = ILLEGAL_COMMAND, whichever is found first (log entry 17). -/
inductive DecodeError where
  /-- OP is 0x0, 0xE or 0xF -/
  | reservedOpcode
  /-- RSV0, bits 7:4, is not 0 -/
  | rsv0NotZero
  /-- RSV1, bit 15, is not 0 -/
  | rsv1NotZero
  /-- RSV2, bits 31:24, is not 0 -/
  | rsv2NotZero
  /-- NBITS is not 0 and OP is not RANDOM_BITS -/
  | nbitsNotZero
  /-- SLEN is not 0 and OP takes no string -/
  | slenNotZero
deriving DecidableEq, Repr

namespace Cmd

/-- `OP = CMD[3:0]` (30_encoding.md R70). -/
def op (w : Word) : Nat := (w.extractLsb' 0 4).toNat

/-- `RSV0 = CMD[7:4]` (30_encoding.md R70). -/
def rsv0 (w : Word) : Nat := (w.extractLsb' 4 4).toNat

/-- `NBITS = CMD[14:8]`, a natural 0..127 (30_encoding.md R74). -/
def nbits (w : Word) : Nat := (w.extractLsb' 8 7).toNat

/-- `RSV1 = CMD[15]` (30_encoding.md R70). -/
def rsv1 (w : Word) : Nat := (w.extractLsb' 15 1).toNat

/-- `SLEN = CMD[23:16]`, a natural 0..255 (30_encoding.md R74). -/
def slen (w : Word) : Nat := (w.extractLsb' 16 8).toNat

/-- `RSV2 = CMD[31:24]` (30_encoding.md R70). -/
def rsv2 (w : Word) : Nat := (w.extractLsb' 24 8).toNat

/-- A word from its fields, most significant first: the pattern `RRRRRRRR LLLLLLLL rNNNNNNN rrrr OOOO` of
30_encoding.md R70 with its reserved bits 0. -/
def ofFields (op nbits slen : Nat) : Word :=
  (0#8 ++ BitVec.ofNat 8 slen ++ 0#1 ++ BitVec.ofNat 7 nbits ++ 0#4 ++ BitVec.ofNat 4 op : BitVec 32)

end Cmd

/-- `legal(CMD)`, the four conditions of 30_encoding.md R73. -/
def legal (w : Word) : Bool :=
  (1 ≤ Cmd.op w && Cmd.op w ≤ 0xD)
    && (Cmd.rsv0 w == 0 && Cmd.rsv1 w == 0 && Cmd.rsv2 w == 0)
    && (Cmd.nbits w == 0 || Cmd.op w == 0xB)
    && (Cmd.slen w == 0 || (2 ≤ Cmd.op w && Cmd.op w ≤ 5))

/-- A command that uses neither NBITS nor SLEN: both must be 0 (30_encoding.md R72). -/
def decodePlain (w : Word) (i : Instr) : Except DecodeError Instr :=
  if Cmd.nbits w ≠ 0 then .error .nbitsNotZero
  else if Cmd.slen w ≠ 0 then .error .slenNotZero
  else .ok i

/-- A command of the string class, which reads SLEN: NBITS must be 0 (30_encoding.md R72). -/
def decodeWithSlen (w : Word) (mk : Nat → Instr) : Except DecodeError Instr :=
  if Cmd.nbits w ≠ 0 then .error .nbitsNotZero else .ok (mk (Cmd.slen w))

/-- RANDOM_BITS, which reads NBITS: SLEN must be 0 (30_encoding.md R72). -/
def decodeWithNbits (w : Word) (mk : Nat → Instr) : Except DecodeError Instr :=
  if Cmd.slen w ≠ 0 then .error .slenNotZero else .ok (mk (Cmd.nbits w))

/-- The decoder of the command word: total, with a named reason for each illegal word
(30_encoding.md R71, R73, R84). -/
def decode (w : Word) : Except DecodeError Instr :=
  if Cmd.rsv0 w ≠ 0 then .error .rsv0NotZero
  else if Cmd.rsv1 w ≠ 0 then .error .rsv1NotZero
  else if Cmd.rsv2 w ≠ 0 then .error .rsv2NotZero
  else
    match Cmd.op w with
    | 0x1 => decodePlain w .encode
    | 0x2 => decodeWithSlen w .decode
    | 0x3 => decodeWithSlen w .isValidPartial
    | 0x4 => decodeWithSlen w .isValid
    | 0x5 => decodeWithSlen w .decodePartial
    | 0x6 => decodePlain w .pack
    | 0x7 => decodePlain w .xid
    | 0x8 => decodePlain w .xidString
    | 0x9 => decodePlain w .timepoint
    | 0xA => decodePlain w .timestamp
    | 0xB => decodeWithNbits w .randomBits
    | 0xC => decodePlain w .random
    | 0xD => decodePlain w .randomString
    | _ => .error .reservedOpcode

/-- The opcode of a command (30_encoding.md R71). -/
def opcodeOf : Instr → Nat
  | .encode => 0x1
  | .decode _ => 0x2
  | .isValidPartial _ => 0x3
  | .isValid _ => 0x4
  | .decodePartial _ => 0x5
  | .pack => 0x6
  | .xid => 0x7
  | .xidString => 0x8
  | .timepoint => 0x9
  | .timestamp => 0xA
  | .randomBits _ => 0xB
  | .random => 0xC
  | .randomString => 0xD

/-- The SLEN field of a command's word: 0 where the command takes no string (30_encoding.md R72). -/
def slenOf : Instr → Nat
  | .encode => 0
  | .decode slen => slen
  | .isValidPartial slen => slen
  | .isValid slen => slen
  | .decodePartial slen => slen
  | .pack => 0
  | .xid => 0
  | .xidString => 0
  | .timepoint => 0
  | .timestamp => 0
  | .randomBits _ => 0
  | .random => 0
  | .randomString => 0

/-- The NBITS field of a command's word: 0 for every command but RANDOM_BITS (30_encoding.md R72). -/
def nbitsOf : Instr → Nat
  | .encode => 0
  | .decode _ => 0
  | .isValidPartial _ => 0
  | .isValid _ => 0
  | .decodePartial _ => 0
  | .pack => 0
  | .xid => 0
  | .xidString => 0
  | .timepoint => 0
  | .timestamp => 0
  | .randomBits nbits => nbits
  | .random => 0
  | .randomString => 0

/-- The command word of a command (30_encoding.md R87). -/
def encode (i : Instr) : Word := Cmd.ofFields (opcodeOf i) (nbitsOf i) (slenOf i)

/-- The rows of spec/opcode_table.json: mnemonic, mask and match. -/
def opcodeTable : List (String × Word × Word) :=
  [("ENCODE", 0xFFFFFFFF#32, 0x00000001#32),
   ("DECODE", 0xFF00FFFF#32, 0x00000002#32),
   ("IS_VALID_PARTIAL", 0xFF00FFFF#32, 0x00000003#32),
   ("IS_VALID", 0xFF00FFFF#32, 0x00000004#32),
   ("DECODE_PARTIAL", 0xFF00FFFF#32, 0x00000005#32),
   ("PACK", 0xFFFFFFFF#32, 0x00000006#32),
   ("XID", 0xFFFFFFFF#32, 0x00000007#32)] ++
  [("XID_STRING", 0xFFFFFFFF#32, 0x00000008#32),
   ("TIMEPOINT", 0xFFFFFFFF#32, 0x00000009#32),
   ("TIMESTAMP", 0xFFFFFFFF#32, 0x0000000A#32),
   ("RANDOM_BITS", 0xFFFF80FF#32, 0x0000000B#32),
   ("RANDOM", 0xFFFFFFFF#32, 0x0000000C#32),
   ("RANDOM_STRING", 0xFFFFFFFF#32, 0x0000000D#32)]

/-- A row of the table matches a word: `CMD & mask = match` (30_encoding.md R73). -/
def rowMatches (w : Word) (row : String × Word × Word) : Bool := w &&& row.2.1 == row.2.2

/-- The word that `nbits` bits `w` of an opcode-table row stand for: every bit above `nbits` is 0. CMD is one 32-bit
number and bit 0 is its least significant bit (00_scope.md R9), so no byte order enters (log entry 18). -/
def tableWord (nbits w : Nat) : Word := BitVec.ofNat 32 (w % 2 ^ nbits)

/-- The command this decoder reads from a row's bits, none where the word is illegal. -/
def decodeTableWord (nbits w : Nat) : Option Instr :=
  match decode (tableWord nbits w) with
  | .ok i => some i
  | .error _ => none

end Sys2Proof
end

