-- ==== Sys2Proof/Machine/State.lean ====
section
/-! DEFINITION. The state of the block and of the agents around it, the steps the agents may take, and the reasons
a step can stop (10_state.md R20 to R44). -/

namespace Sys2Proof.Machine

/-- CMDREC: a command as HOST presents it (10_state.md R25). -/
structure CmdRec where
  /-- CMD, the command word -/
  cmd : Word
  /-- A, the first data operand -/
  a : U64
  /-- B, the second data operand -/
  b : U64
  /-- S[0..10], the string operand bytes -/
  s : Vector Byte 11
deriving DecidableEq, Repr

/-- A record of zeros: what the operands read as while no command is latched (log entry 6). -/
def CmdRec.zero : CmdRec := { cmd := 0, a := 0, b := 0, s := ⟨⟨List.replicate 11 0⟩, rfl⟩ }

/-- RESP: the response register (10_state.md R26). -/
structure Resp where
  /-- RESP_VALID -/
  valid : Bool
  /-- STATUS, 4 bits -/
  status : BitVec 4
  /-- R -/
  r : U64
  /-- V -/
  v : Bool
  /-- OLEN, 5 bits -/
  olen : BitVec 5
  /-- OSTR[0..23] -/
  ostr : Vector Byte 24
deriving DecidableEq, Repr

/-- RESP_ZERO: RESP_VALID = 0 and every field 0 (10_state.md R37, R43). -/
def Resp.zero : Resp :=
  { valid := false, status := 0, r := 0, v := false, olen := 0, ostr := ⟨⟨List.replicate 24 0⟩, rfl⟩ }

/-- PHASE (10_state.md R27). -/
inductive Phase where
  | idle
  | waitEntropy
deriving DecidableEq, Repr

/-- PENDING: the command in progress while PHASE = WAIT_ENTROPY (10_state.md R28), with the number of its entropy
request (70_reset_and_hazards.md R231; log entry 4). -/
structure Pending where
  cmd : CmdRec
  /-- k, the number of entropy bytes requested -/
  k : Nat
  /-- clk, the clock sample of XID and XID_STRING -/
  clk : Option U64
  /-- the number of the entropy request this command issued -/
  req : Nat
deriving DecidableEq, Repr

/-- An answer of ENTROPY to one request (10_state.md R33). No answer at all is the absence of an ANSWER step. -/
inductive Answer where
  /-- BYTES(e_0, e_1, ...), e_0 first -/
  | bytes (e : List Byte)
  /-- UNAVAILABLE -/
  | unavailable
deriving DecidableEq, Repr

/-- One step of an agent (10_state.md R20, R34; log entry 1). -/
inductive AgentStep where
  /-- HOST presents a command; `clock` is what CLOCK shows in this step (10_state.md R32, R37) -/
  | issue (c : CmdRec) (clock : U64)
  /-- ENTROPY answers the request number `req` (10_state.md R40, 70_reset_and_hazards.md R231) -/
  | answer (req : Nat) (ans : Answer)
  /-- HOST reads RESP (10_state.md R42) -/
  | read
  /-- the platform resets the block (70_reset_and_hazards.md R230) -/
  | reset
deriving DecidableEq, Repr

/-- The block's state (`phase`, `pending`, `latched`, `resp`: 10_state.md R29, R43) and, as the model's own plain data,
the agents around it (`inputs`, `clock`, `nextRequest`, `withdrawn`, `reads`: log entries 1 to 5 and 8). -/
structure State where
  /-- PHASE (10_state.md R27) -/
  phase : Phase
  /-- PENDING (10_state.md R28) -/
  pending : Option Pending
  /-- the latched CMDREC, none where no command is latched (10_state.md R25, R43) -/
  latched : Option CmdRec
  /-- RESP (10_state.md R26) -/
  resp : Resp
  /-- the agents' steps still to come, the first one next -/
  inputs : List AgentStep
  /-- what CLOCK shows in the current step (10_state.md R32) -/
  clock : U64
  /-- the number the next entropy request gets -/
  nextRequest : Nat
  /-- the requests that RESET withdrew and ENTROPY has not answered, newest first -/
  withdrawn : List Nat
  /-- the responses READ has returned to HOST, newest first -/
  reads : List Resp
deriving DecidableEq, Repr

/-- Why the machine stops with a fault. -/
inductive Fault where
  /-- Raised by ANSWER when PENDING holds a command that makes no entropy request, or a clock sample that does not fit
  its command. No ISSUE makes such a PENDING (State.Inv of Safety.lean), so no run reaches it. Safe (log entry 10). -/
  | pendingIllFormed
deriving DecidableEq, Repr

/-- Why a step has no meaning. The last three are steps that the spec does not enable (log entry 9). -/
inductive Refusal where
  /-- Raised by an arm of exec that has no meaning yet. No arm raises it now. Safe. -/
  | notModelled (mnemonic : String)
  /-- Raised by ISSUE while PHASE = WAIT_ENTROPY: "HOST has no issue step" (10_state.md R35). Safe. -/
  | issueWhileWaiting
  /-- Raised by ANSWER to a request that is neither the pending one nor a withdrawn one: ENTROPY answers "once per
  request" (10_state.md R33, R40). Safe. -/
  | answerToNoOpenRequest
  /-- Raised by ANSWER with a number of bytes other than the k requested (10_state.md R33). Safe. -/
  | answerOfWrongLength
deriving DecidableEq, Repr

/-- What a step of this machine answers. -/
abbrev Out := Host.Outcome State Fault Refusal

/-- The machine after RESET (10_state.md R43). The fields of the agents are empty: log entries 1 to 5 and 8. -/
def State.reset : State :=
  { phase := .idle, pending := none, latched := none, resp := Resp.zero,
    inputs := [], clock := 0, nextRequest := 0, withdrawn := [], reads := [] }

end Sys2Proof.Machine
end

