-- ==== Sys2Proof/Machine/Flags.lean ====
section
/-! DEFINITION. The status codes and the response records: the three status indications RESP_VALID, STATUS and V
(10_state.md R30) and every form of response (30_encoding.md R78, R79). -/

namespace Sys2Proof.Machine

namespace Status

/-- 0: the command completed (30_encoding.md R78). -/
abbrev ok : BitVec 4 := 0#4
/-- 1: `legal(CMD)` is false (30_encoding.md R78). -/
abbrev illegalCommand : BitVec 4 := 1#4
/-- 2: NBITS > 64 for RANDOM_BITS (30_encoding.md R78). -/
abbrev rangeError : BitVec 4 := 2#4
/-- 3: the time is below EPOCH_MS in an ERROR build (30_encoding.md R78). -/
abbrev timeUnderflow : BitVec 4 := 3#4
/-- 4: ENTROPY answered UNAVAILABLE (30_encoding.md R78). -/
abbrev entropyUnavailable : BitVec 4 := 4#4

end Status

/-- A string result in the 24-byte buffer: OSTR[0] is its first character and the bytes after it are 0
(30_encoding.md R79). -/
def ostrOf (out : List Byte) : Vector Byte 24 := ⟨⟨(out ++ List.replicate 24 0).take 24⟩, by simp⟩

/-- A response with every field written (30_encoding.md R79). -/
def respOf (status : BitVec 4) (r : U64) (v : Bool) (out : List Byte) : Resp :=
  { valid := true, status := status, r := r, v := v, olen := BitVec.ofNat 5 out.length, ostr := ostrOf out }

/-- OK with a numeric result R (30_encoding.md R79). -/
def okNumber (r : U64) : Resp := respOf Status.ok r false []

/-- OK with V = 1 and a numeric result R: a successful validation function (30_encoding.md R78). -/
def okDecoded (r : U64) : Resp := respOf Status.ok r true []

/-- The invalid marker: OK with V = 0 and R = 0, which is no error (30_encoding.md R78). -/
def okInvalid : Resp := respOf Status.ok 0 false []

/-- OK with a boolean result V (30_encoding.md R79). -/
def okBool (v : Bool) : Resp := respOf Status.ok 0 v []

/-- OK with a string result in OSTR and its length in OLEN (30_encoding.md R79). -/
def okString (out : List Byte) : Resp := respOf Status.ok 0 false out

/-- An error response: the code, and nothing besides (60_exceptions.md R201). -/
def errorResp (status : BitVec 4) : Resp := respOf status 0 false []

end Sys2Proof.Machine
end

