-- ==== Sys2Proof/Machine/Operands.lean ====
section
/-! DEFINITION. Every operand form: the data operands A and B, the string operand, the digits of a number, the tables
ALPHA and REV, and the assembly of entropy bytes (10_state.md R22, R24; 30_encoding.md R74 to R77, R80;
42_randomness.md R180). -/

namespace Sys2Proof.Machine

/-- The command whose operands are read: the latched one (20_memory.md R55). With none latched, which ISSUE rules out,
the operands read as 0 (log entry 6). -/
def command (s : State) : CmdRec :=
  match s.latched with
  | some c => c
  | none => CmdRec.zero

/-- The operand A (10_state.md R25). -/
def operandA (s : State) : U64 := (command s).a

/-- The operand B (10_state.md R25). -/
def operandB (s : State) : U64 := (command s).b

/-- The bytes of the string operand that are presented: `S[0 .. min(SLEN,11) - 1]` (30_encoding.md R76). -/
def operandStr (slen : Nat) (s : State) : List Byte := (command s).s.toList.take slen

/-- ALPHA, the 58 characters in digit order (10_state.md R22; log entry 11). -/
def alphaTable : List Byte :=
  [0x31, 0x32, 0x33, 0x34, 0x35, 0x36, 0x37, 0x38, 0x39, 0x41, 0x42, 0x43, 0x44, 0x45, 0x46] ++
  [0x47, 0x48, 0x4A, 0x4B, 0x4C, 0x4D, 0x4E, 0x50, 0x51, 0x52, 0x53, 0x54, 0x55, 0x56, 0x57] ++
  [0x58, 0x59, 0x5A, 0x61, 0x62, 0x63, 0x64, 0x65, 0x66, 0x67, 0x68, 0x69, 0x6A, 0x6B, 0x6D] ++
  [0x6E, 0x6F, 0x70, 0x71, 0x72, 0x73, 0x74, 0x75, 0x76, 0x77, 0x78, 0x79, 0x7A]

/-- `ALPHA[d]`, for a digit d in 0..57 (10_state.md R22). No rule reads another index. -/
def alpha (d : Nat) : Byte := alphaTable.getD d 0

/-- `REV[b]`, by the ranges of 10_state.md R24; `none` is the marker NONE (log entry 14). -/
def rev (b : Byte) : Option Nat :=
  let n := b.toNat
  if 0x31 ≤ n ∧ n ≤ 0x39 then some (n - 0x31)
  else if 0x41 ≤ n ∧ n ≤ 0x48 then some (n - 0x41 + 9)
  else if 0x4A ≤ n ∧ n ≤ 0x4E then some (n - 0x4A + 17)
  else if 0x50 ≤ n ∧ n ≤ 0x5A then some (n - 0x50 + 22)
  else if 0x61 ≤ n ∧ n ≤ 0x6B then some (n - 0x61 + 33)
  else if 0x6D ≤ n ∧ n ≤ 0x7A then some (n - 0x6D + 44)
  else none

/-- `inAlpha(b)` (40_codec.md R100). -/
def inAlpha (b : Byte) : Bool := (rev b).isSome

/-- `alphaValid(str, L)` for the L bytes of `str` (40_codec.md R100). -/
def alphaValid (str : List Byte) : Bool := str.all inAlpha

/-- The `n` low digits of `x` in base `b`, most significant first (20_memory.md R52). -/
def digits (b : Nat) : Nat → Nat → List Nat
  | 0, _ => []
  | n + 1, x => digits b n (x / b) ++ [x % b]

/-- `assemble(n, e)`: the bytes big endian, masked to n bits where n is no multiple of 8 (42_randomness.md R180). -/
def assemble (n : Nat) (e : List Byte) : Nat :=
  let v := e.foldl (fun v b => v * 256 + b.toNat) 0
  if n % 8 ≠ 0 then v &&& (2 ^ n - 1) else v

/-- k, the number of entropy bytes for n bits (42_randomness.md R180). -/
def entropyBytes (n : Nat) : Nat := (n + 7) / 8

end Sys2Proof.Machine
end

