-- ==== Sys2Proof/Machine/Ops.lean ====
section
/-! DEFINITION. The named operations on the block's registers: acceptance, response, error response, clock sample,
entropy request, completion, reset and read (10_state.md R37 to R43). The block has no memory and no trap: the one way
a command reports an error is `raise` (60_exceptions.md R201, R203). -/

namespace Sys2Proof.Machine

/-- The opening of ISSUE: RESP is zeroed and the command is latched whole (10_state.md R37). `clock` is what CLOCK
shows in this step; it is not a sample yet (10_state.md R32; log entry 3). -/
def accept (c : CmdRec) (clock : U64) (s : State) : State :=
  { s with resp := Resp.zero, latched := some c, clock := clock }

/-- `respond` in the ISSUE step: RESP is written whole and PHASE stays IDLE (10_state.md R38). -/
def respond (r : Resp) (s : State) : State := { s with resp := r }

/-- `raise <STATUS>`: the command ends with an error response (00_scope.md R11, 60_exceptions.md R201). -/
def raise (status : BitVec 4) (s : State) : State := respond (errorResp status) s

/-- `ClockSample()`: what CLOCK shows in this step (10_state.md R32). -/
def clockSample (s : State) : U64 := s.clock

/-- `start(c, k, clk)`: the command goes to PENDING, PHASE to WAIT_ENTROPY, and `EntropyRequest(k)` is issued under a
number of its own (10_state.md R37, 70_reset_and_hazards.md R231). -/
def start (k : Nat) (clk : Option U64) (s : State) : State :=
  { s with
    pending := some { cmd := command s, k := k, clk := clk, req := s.nextRequest }
    phase := .waitEntropy
    nextRequest := s.nextRequest + 1 }

/-- The end of ANSWER: RESP is written whole, PENDING is none and PHASE is IDLE (10_state.md R40). -/
def complete (r : Resp) (s : State) : State := { s with resp := r, pending := none, phase := .idle }

/-- RESET: every piece of the block's state takes its reset value, and the entropy request in progress is withdrawn
(10_state.md R43, 70_reset_and_hazards.md R230, R231). The agents' own data stay (log entry 15). -/
def resetBlock (s : State) : State :=
  { s with
    phase := .idle
    pending := none
    latched := none
    resp := Resp.zero
    withdrawn := match s.pending with
      | some p => p.req :: s.withdrawn
      | none => s.withdrawn }

/-- READ: HOST gets the current RESP and nothing of the block changes (10_state.md R42; log entry 8). -/
def readResp (s : State) : State := { s with reads := s.resp :: s.reads }

end Sys2Proof.Machine
end

