-- ==== Sys2Proof/Machine/Codec.lean ====
section
/-! DEFINITION. The codec commands ENCODE, DECODE, IS_VALID_PARTIAL, IS_VALID and DECODE_PARTIAL (40_codec.md). -/

namespace Sys2Proof.Machine

/-- The 11 characters ENCODE computes (40_codec.md R101). -/
def encodeStr (x : U64) : List Byte := (digits Config.base Config.len x.toNat).map alpha

/-- The guarded accumulation from a value `v`; none is INVALID (40_codec.md R102). -/
def accFrom (v : Nat) : List Byte → Option Nat
  | [] => some v
  | b :: str =>
    match rev b with
    | none => none
    | some d => if v * Config.base + d > maxU64 then none else accFrom (v * Config.base + d) str

/-- `acc(str, L)` for the L bytes of `str` (40_codec.md R102). -/
def acc (str : List Byte) : Option Nat := accFrom 0 str

/-- The response of a validation function that decodes: the value with V = 1, or the invalid marker
(40_codec.md R103, R107). -/
def decodedResp : Option Nat → Resp
  | some v => okDecoded (BitVec.ofNat 64 v)
  | none => okInvalid

/-- The result of DECODE (40_codec.md R103). -/
def decodeStr (slen : Nat) (str : List Byte) : Option Nat :=
  if slen ≠ Config.len then none else acc str

/-- The result of IS_VALID_PARTIAL (40_codec.md R105). -/
def isValidPartialStr (slen : Nat) (str : List Byte) : Bool := decide (slen ≤ Config.len) && alphaValid str

/-- The result of IS_VALID (40_codec.md R106). -/
def isValidStr (slen : Nat) (str : List Byte) : Bool := decide (slen = Config.len) && alphaValid str

/-- The result of DECODE_PARTIAL: the accumulation left-justified, invalid where the product passes 2^64 - 1
(40_codec.md R107, R108; log entry 13). -/
def decodePartialStr (slen : Nat) (str : List Byte) : Option Nat :=
  if isValidPartialStr slen str then
    match acc str with
    | none => none
    | some v =>
      let w := v * Config.base ^ (Config.len - slen)
      if w > maxU64 then none else some w
  else none

/-- ENCODE (40_codec.md R101). -/
def execEncode (s : State) : Out := .next (respond (okString (encodeStr (operandA s))) s)

/-- DECODE (40_codec.md R103). -/
def execDecode (slen : Nat) (s : State) : Out :=
  .next (respond (decodedResp (decodeStr slen (operandStr slen s))) s)

/-- IS_VALID_PARTIAL (40_codec.md R105). -/
def execIsValidPartial (slen : Nat) (s : State) : Out :=
  .next (respond (okBool (isValidPartialStr slen (operandStr slen s))) s)

/-- IS_VALID (40_codec.md R106). -/
def execIsValid (slen : Nat) (s : State) : Out :=
  .next (respond (okBool (isValidStr slen (operandStr slen s))) s)

/-- DECODE_PARTIAL (40_codec.md R107). -/
def execDecodePartial (slen : Nat) (s : State) : Out :=
  .next (respond (decodedResp (decodePartialStr slen (operandStr slen s))) s)

end Sys2Proof.Machine
end

