-- ==== Sys2Proof/Machine/Bitpacker.lean ====
section
/-! DEFINITION. The bit-packer commands PACK, XID, XID_STRING, TIMEPOINT and TIMESTAMP (41_bitpacker.md). Of XID and
XID_STRING the arm of exec is the ISSUE half; the ANSWER half is `finishXid` and `finishXidString`. -/

namespace Sys2Proof.Machine

/-- EPOCH_MS as a 64-bit value. -/
def epoch : U64 := BitVec.ofNat 64 Config.epochMs

/-- The 20-bit mask of 41_bitpacker.md R140. -/
def mask20 : U64 := 0xFFFFF#64

/-- The difference d of 41_bitpacker.md R140; none is UNDERFLOW. The two's-complement difference mod 2^64 is the exact
one where the time is not below EPOCH_MS. -/
def timeDiff (build : PackUnderflow) (t : U64) : Option U64 :=
  if Config.epochMs ≤ t.toNat then some (t - epoch)
  else
    match build with
    | .error => none
    | .wrap => some (t - epoch)

/-- `packcore(t, r)` of a build; none is UNDERFLOW (41_bitpacker.md R140, R143). -/
def packcore (build : PackUnderflow) (t r : U64) : Option U64 :=
  match timeDiff build t with
  | none => none
  | some d => some (d <<< 20 ||| (r &&& mask20))

/-- The response of PACK and XID: the payload in R, or TIME_UNDERFLOW (41_bitpacker.md R142, R145). -/
def packResp : Option U64 → Resp
  | some p => okNumber p
  | none => errorResp Status.timeUnderflow

/-- The response of XID_STRING: the identifier of the payload, or TIME_UNDERFLOW (41_bitpacker.md R146). -/
def packStringResp : Option U64 → Resp
  | some p => okString (encodeStr p)
  | none => errorResp Status.timeUnderflow

/-- The 20-bit random field of XID, `randomBits(20)` (41_bitpacker.md R144). -/
def xidRandom (e : List Byte) : U64 := BitVec.ofNat 64 (assemble 20 e)

/-- The time T of a payload, in milliseconds since the Unix epoch (41_bitpacker.md R147). -/
def timepointOf (p : U64) : Nat := (p >>> 20).toNat + Config.epochMs

/-- `civil(z)`: the proleptic Gregorian year, month and day of a day number (41_bitpacker.md R148). -/
def civil (z : Nat) : Nat × Nat × Nat :=
  let z := z + 719468
  let era := z / 146097
  let doe := z - era * 146097
  let yoe := (doe - doe / 1460 + doe / 36524 - doe / 146096) / 365
  let y := yoe + era * 400
  let doy := doe - (365 * yoe + yoe / 4 - yoe / 100)
  let mp := (5 * doy + 2) / 153
  let d := doy - (153 * mp + 2) / 5 + 1
  let m := if mp < 10 then mp + 3 else mp - 9
  (if m ≤ 2 then y + 1 else y, m, d)

/-- `decN(v)`: v in n zero-padded ASCII decimal digits (41_bitpacker.md R149). -/
def dec (n v : Nat) : List Byte := (digits 10 n v).map fun d => BitVec.ofNat 8 (0x30 + d)

/-- `iso(T)`: the 24 bytes of the timestamp text (41_bitpacker.md R149, 30_encoding.md R82; log entry 12). -/
def iso (t : Nat) : List Byte :=
  let days := t / 86400000
  let msOfDay := t % 86400000
  let date := civil days
  dec 4 date.1 ++ [0x2D] ++ dec 2 date.2.1 ++ [0x2D] ++ dec 2 date.2.2 ++ [0x54] ++
    dec 2 (msOfDay / 3600000) ++ [0x3A] ++ dec 2 (msOfDay / 60000 % 60) ++ [0x3A] ++
    dec 2 (msOfDay / 1000 % 60) ++ [0x2E] ++ dec 3 (msOfDay % 1000) ++ [0x5A]

/-- PACK (41_bitpacker.md R142). -/
def execPack (s : State) : Out :=
  .next (respond (packResp (packcore Config.packUnderflow (operandA s) (operandB s))) s)

/-- XID, its ISSUE half: the clock is sampled once, then 3 entropy bytes are requested (41_bitpacker.md R145). -/
def execXid (s : State) : Out := .next (start (entropyBytes 20) (some (clockSample s)) s)

/-- XID, its ANSWER half, from the sample t and the bytes e (41_bitpacker.md R145). -/
def finishXid (t : U64) (e : List Byte) : Resp := packResp (packcore Config.packUnderflow t (xidRandom e))

/-- XID_STRING, its ISSUE half, as XID's (41_bitpacker.md R146). -/
def execXidString (s : State) : Out := .next (start (entropyBytes 20) (some (clockSample s)) s)

/-- XID_STRING, its ANSWER half (41_bitpacker.md R146). -/
def finishXidString (t : U64) (e : List Byte) : Resp :=
  packStringResp (packcore Config.packUnderflow t (xidRandom e))

/-- TIMEPOINT (41_bitpacker.md R147). -/
def execTimepoint (s : State) : Out :=
  .next (respond (okNumber (BitVec.ofNat 64 (timepointOf (operandA s)))) s)

/-- TIMESTAMP (41_bitpacker.md R150). -/
def execTimestamp (s : State) : Out :=
  .next (respond (okString (iso (timepointOf (operandA s)))) s)

end Sys2Proof.Machine
end

