-- ==== Sys2Proof/Machine/Randomness.lean ====
section
/-! DEFINITION. The randomness commands RANDOM_BITS, RANDOM and RANDOM_STRING (42_randomness.md). The arm of exec is the
ISSUE half of each; the ANSWER half is its `finish...`. -/

namespace Sys2Proof.Machine

/-- RANDOM_BITS, its ISSUE half: RANGE_ERROR above 64, else one request of k bytes (42_randomness.md R181, R182). -/
def execRandomBits (nbits : Nat) (s : State) : Out :=
  .next (if 64 < nbits then raise Status.rangeError s else start (entropyBytes nbits) none s)

/-- RANDOM_BITS, its ANSWER half (42_randomness.md R182). -/
def finishRandomBits (nbits : Nat) (e : List Byte) : Resp := okNumber (BitVec.ofNat 64 (assemble nbits e))

/-- RANDOM, its ISSUE half: one request of 8 bytes (42_randomness.md R183). -/
def execRandom (s : State) : Out := .next (start (entropyBytes 64) none s)

/-- RANDOM, its ANSWER half (42_randomness.md R183). -/
def finishRandom (e : List Byte) : Resp := okNumber (BitVec.ofNat 64 (assemble 64 e))

/-- RANDOM_STRING, its ISSUE half, as RANDOM's (42_randomness.md R184). -/
def execRandomString (s : State) : Out := .next (start (entropyBytes 64) none s)

/-- RANDOM_STRING, its ANSWER half (42_randomness.md R184). -/
def finishRandomString (e : List Byte) : Resp := okString (encodeStr (BitVec.ofNat 64 (assemble 64 e)))

end Sys2Proof.Machine
end

