-- ==== Sys2Proof/Machine/Dispatch.lean ====
section
/-! DEFINITION. One arm for each command: the effect of its ISSUE step on a state in which it is accepted
(10_state.md R37). -/

namespace Sys2Proof.Machine

def exec (i : Instr) (s : State) : Host.Outcome State Fault Refusal :=
  match i with
  | .encode => Sys2Proof.Machine.execEncode s
  | .decode slen => Sys2Proof.Machine.execDecode slen s
  | .isValidPartial slen => Sys2Proof.Machine.execIsValidPartial slen s
  | .isValid slen => Sys2Proof.Machine.execIsValid slen s
  | .decodePartial slen => Sys2Proof.Machine.execDecodePartial slen s
  | .pack => Sys2Proof.Machine.execPack s
  | .xid => Sys2Proof.Machine.execXid s
  | .xidString => Sys2Proof.Machine.execXidString s
  | .timepoint => Sys2Proof.Machine.execTimepoint s
  | .timestamp => Sys2Proof.Machine.execTimestamp s
  | .randomBits nbits => Sys2Proof.Machine.execRandomBits nbits s
  | .random => Sys2Proof.Machine.execRandom s
  | .randomString => Sys2Proof.Machine.execRandomString s

end Sys2Proof.Machine
end

