-- ==== Sys2Proof/Machine/Agents.lean ====
section
/-! DEFINITION. The steps of the agents: ISSUE, ANSWER, READ and RESET (10_state.md R34 to R42). -/

namespace Sys2Proof.Machine

/-- ISSUE(c): enabled in PHASE = IDLE alone; the command is accepted, and an illegal word ends with ILLEGAL_COMMAND
while a legal one is executed (10_state.md R35, R37). -/
def issue (c : CmdRec) (clock : U64) (s : State) : Out :=
  match s.phase with
  | .waitEntropy => .refused .issueWhileWaiting
  | .idle =>
    match decode c.cmd with
    | .error _ => .next (raise Status.illegalCommand (accept c clock s))
    | .ok i => exec i (accept c clock s)

/-- The ANSWER half of a command from its clock sample and its entropy bytes; none where the command makes no request
or the sample does not fit it (10_state.md R40, log entry 10). -/
def finishInstr (i : Instr) (clk : Option U64) (e : List Byte) : Option Resp :=
  match i, clk with
  | .xid, some t => some (finishXid t e)
  | .xidString, some t => some (finishXidString t e)
  | .randomBits nbits, none => some (finishRandomBits nbits e)
  | .random, none => some (finishRandom e)
  | .randomString, none => some (finishRandomString e)
  | .encode, _ => none
  | .decode _, _ => none
  | .isValidPartial _, _ => none
  | .isValid _, _ => none
  | .decodePartial _, _ => none
  | .pack, _ => none
  | .timepoint, _ => none
  | .timestamp, _ => none
  | .xid, none => none
  | .xidString, none => none
  | .randomBits _, some _ => none
  | .random, some _ => none
  | .randomString, some _ => none

/-- `finish p.cmd with bytes e and clock p.clk` (10_state.md R40). -/
def finish (p : Pending) (e : List Byte) : Option Resp :=
  match decode p.cmd.cmd with
  | .ok i => finishInstr i p.clk e
  | .error _ => none

/-- ANSWER to the pending request (10_state.md R40). -/
def answerPending (p : Pending) (ans : Answer) (s : State) : Out :=
  match ans with
  | .unavailable => .next (complete (errorResp Status.entropyUnavailable) s)
  | .bytes e =>
    if e.length ≠ p.k then .refused .answerOfWrongLength
    else
      match finish p e with
      | some r => .next (complete r s)
      | none => .fault .pendingIllFormed

/-- ANSWER(ans) to the request number `req`: an answer to a withdrawn request is discarded, one to the pending request
completes its command, and any other is not enabled (10_state.md R40, 70_reset_and_hazards.md R231; log entry 5). -/
def answer (req : Nat) (ans : Answer) (s : State) : Out :=
  if req ∈ s.withdrawn then .next { s with withdrawn := s.withdrawn.erase req }
  else
    match s.phase, s.pending with
    | .waitEntropy, some p =>
      if p.req = req then answerPending p ans s else .refused .answerToNoOpenRequest
    | .waitEntropy, none => .refused .answerToNoOpenRequest
    | .idle, _ => .refused .answerToNoOpenRequest

/-- One agent's step (10_state.md R34). -/
def agentStep (e : AgentStep) (s : State) : Out :=
  match e with
  | .issue c clock => issue c clock s
  | .answer req ans => answer req ans s
  | .read => .next (readResp s)
  | .reset => .next (resetBlock s)

/-- HOST's command for a bare command word: the operands are 0, as the assembler sets what a listing does not give
(30_encoding.md R85; log entry 16). -/
def bareCommand (w : Word) : CmdRec := { CmdRec.zero with cmd := w }

/-- The agents' next step becomes the ISSUE of a bare command word, in PHASE = IDLE (log entry 16). -/
def withIssue (w : Word) (s : State) : State :=
  { s with phase := .idle, pending := none, inputs := .issue (bareCommand w) s.clock :: s.inputs }

end Sys2Proof.Machine
end

