-- ==== Sys2Proof/Machine/Step.lean ====
section
/-! DEFINITION. One step of the machine: the next agent's step is taken off `inputs` and carried out (10_state.md R34). -/

namespace Sys2Proof.Machine

/-- One step. With no agent's step to come the machine stays as it is: HOST issues nothing and ENTROPY does not answer
(10_state.md R41; log entry 2). -/
def step (s : State) : Host.Outcome State Fault Refusal :=
  match s.inputs with
  | [] => .next s
  | e :: rest => agentStep e { s with inputs := rest }

/-- The state whose very next step is the ISSUE of the word `w`, with A, B and S zero (log entry 16). -/
def State.withFetchWord (s : State) (nbits w : Nat) : State := withIssue (tableWord nbits w) s

end Sys2Proof.Machine
end

