-- ==== Sys2Proof/Safety.lean ====
section
/-! DEFINITION. The terms that claims use: the invariant of the block, the steps that are enabled, what the block itself
holds apart from the agents, the value of an identifier string, and the Gregorian calendar. -/

namespace Sys2Proof.Machine

/-- The classes of commands (10_state.md R36). -/
inductive CmdClass where
  | pure
  | entropy
  | entropyClock
deriving DecidableEq, Repr

/-- The class of a command (10_state.md R36). -/
def classOf : Instr → CmdClass
  | .encode => .pure
  | .decode _ => .pure
  | .isValidPartial _ => .pure
  | .isValid _ => .pure
  | .decodePartial _ => .pure
  | .pack => .pure
  | .xid => .entropyClock
  | .xidString => .entropyClock
  | .timepoint => .pure
  | .timestamp => .pure
  | .randomBits _ => .entropy
  | .random => .entropy
  | .randomString => .entropy

/-- The number of entropy bytes a command requests, none where it makes no request (10_state.md R37). -/
def requestOf : Instr → Option Nat
  | .encode => none
  | .decode _ => none
  | .isValidPartial _ => none
  | .isValid _ => none
  | .decodePartial _ => none
  | .pack => none
  | .xid => some 3
  | .xidString => some 3
  | .timepoint => none
  | .timestamp => none
  | .randomBits nbits => if 64 < nbits then none else some ((nbits + 7) / 8)
  | .random => some 8
  | .randomString => some 8

/-- A response record that a block may hold (10_state.md R26; 30_encoding.md R78, R79). -/
abbrev RespOk (r : Resp) : Prop :=
  r.status.toNat ≤ 4
    ∧ (r.olen = 0#5 ∨ r.olen = 11#5 ∨ r.olen = 24#5)
    ∧ (∀ i : Fin 24, r.olen.toNat ≤ i.val → r.ostr[i.val] = 0#8)
    ∧ (r.status ≠ Status.ok → r.r = 0#64 ∧ r.v = false ∧ r.olen = 0#5)
    ∧ (r.olen ≠ 0#5 → r.r = 0#64 ∧ r.v = false)
    ∧ (r.valid = false → r = Resp.zero)

/-- A PENDING that ISSUE makes: its command makes an entropy request of k bytes, and it holds a clock sample exactly
where the command takes one (10_state.md R28, R37). -/
abbrev PendingOk (p : Pending) : Prop :=
  ∃ i, decode p.cmd.cmd = .ok i ∧ requestOf i = some p.k ∧ (p.clk.isSome = true ↔ classOf i = .entropyClock)

/-- The invariant of the machine. PENDING and PHASE agree (10_state.md R27, R28); while a command waits RESP is zero
(R37, R39) and the latched command is the pending one; its request number is an issued one that RESET has not
withdrawn (70_reset_and_hazards.md R231); and RESP is a record the block may hold. -/
structure State.Inv (s : State) : Prop where
  phase_pending : s.phase = .idle ↔ s.pending = none
  waiting_resp : s.phase = .waitEntropy → s.resp = Resp.zero
  resp_ok : RespOk s.resp
  pending_latched : ∀ p, s.pending = some p → s.latched = some p.cmd
  pending_ok : ∀ p, s.pending = some p → PendingOk p
  pending_issued : ∀ p, s.pending = some p → p.req < s.nextRequest
  pending_open : ∀ p, s.pending = some p → p.req ∉ s.withdrawn
  withdrawn_issued : ∀ r ∈ s.withdrawn, r < s.nextRequest
  withdrawn_once : s.withdrawn.Nodup

/-- The steps of 10_state.md R34 that are enabled in a state: ISSUE in IDLE (R35); ANSWER, with k bytes, to the pending
request (R33, R40), or to a withdrawn request that still waits for its answer (70_reset_and_hazards.md R231); READ (R42)
and RESET (R230) in every state. -/
abbrev Enabled (e : AgentStep) (s : State) : Prop :=
  match e with
  | .issue _ _ => s.phase = .idle
  | .answer req ans =>
    req ∈ s.withdrawn ∨
      (s.phase = .waitEntropy ∧ ∃ p, s.pending = some p ∧ p.req = req ∧ ∀ e, ans = .bytes e → e.length = p.k)
  | .read => True
  | .reset => True

/-- A run that is safe: no step of it stops. -/
abbrev Runs (n : Nat) (s t : State) : Prop := Host.Core.run Sys2Proof.core n s = .next t

/-- The block's own four registers are the same in two states (10_state.md R29); the agents may differ. -/
abbrev SameBlock (s t : State) : Prop :=
  s.phase = t.phase ∧ s.pending = t.pending ∧ s.latched = t.latched ∧ s.resp = t.resp

/-- `val(s)`: the value of a string of alphabet bytes, first character most significant (30_encoding.md R80). A byte
outside the alphabet counts as 0; every claim excludes it. -/
def val : List Byte → Nat
  | [] => 0
  | b :: str => (rev b).getD 0 * 58 ^ str.length + val str

/-- The ASCII bytes of a text (00_scope.md R10). -/
def ascii (text : String) : List Byte := text.toList.map fun c => BitVec.ofNat 8 c.toNat

/-- The string in OSTR: its first OLEN bytes (10_state.md R26). -/
def outStr (r : Resp) : List Byte := r.ostr.toList.take r.olen.toNat

/-- A command record with a string operand, laid out as the assembler does (30_encoding.md R85): bytes past index 10 are
not presented and missing ones are 0. -/
def stringRec (w : Word) (str : List Byte) : CmdRec :=
  { CmdRec.zero with cmd := w, s := ⟨⟨(str ++ List.replicate 11 0).take 11⟩, by simp⟩ }

/-- Every field of a response: RESP_VALID = 1, the code, R, V and the string, with OLEN its length and every other OSTR
byte 0 (30_encoding.md R79). -/
abbrev RespIs (x : Resp) (status : BitVec 4) (r : U64) (v : Bool) (out : List Byte) : Prop :=
  x.valid = true ∧ x.status = status ∧ x.r = r ∧ x.v = v ∧ x.olen.toNat = out.length
    ∧ x.ostr.toList = out ++ List.replicate (24 - out.length) 0#8

/-- The time field before it is cut to 44 bits: `t - EPOCH_MS`, mod 2^64 where t is below it (41_bitpacker.md R140). -/
def timeSinceEpoch (t : Nat) : Nat := (t + 2 ^ 64 - Config.epochMs) % 2 ^ 64

/-- The packed payload by its two fields (30_encoding.md R81, 41_bitpacker.md R141). -/
def payloadOf (t r : Nat) : Nat := timeSinceEpoch t % 2 ^ 44 * 2 ^ 20 + r % 2 ^ 20

/-- Packing a time succeeds: it is not below EPOCH_MS, or the build is WRAP (41_bitpacker.md R143). -/
abbrev Packs (t : Nat) : Prop := Config.epochMs ≤ t ∨ Config.packUnderflow = .wrap

/-- The bytes of an entropy answer as one number, the first byte most significant (20_memory.md R53). -/
def bigEndian : List Byte → Nat
  | [] => 0
  | b :: e => b.toNat * 256 ^ e.length + bigEndian e

/-- `s` with ENTROPY's answer to the request `req` as the next agent's step. -/
def withAnswer (req : Nat) (ans : Answer) (rest : List AgentStep) (s : State) : State :=
  { s with inputs := .answer req ans :: rest }

/-- `s` once the command in progress has ended with the response `x`: PENDING none, PHASE IDLE (10_state.md R40). -/
def ended (x : Resp) (rest : List AgentStep) (s : State) : State :=
  { s with resp := x, pending := none, phase := .idle, inputs := rest }

/-- `s` waiting for the entropy of the command `c` (10_state.md R37). -/
def waiting (c : CmdRec) (k : Nat) (clk : Option U64) (s : State) : State :=
  { s with pending := some { cmd := c, k := k, clk := clk, req := s.nextRequest }, phase := .waitEntropy,
           nextRequest := s.nextRequest + 1 }

/-- A leap year of the Gregorian calendar. -/
def isLeap (y : Nat) : Bool := y % 4 == 0 && (y % 100 != 0 || y % 400 == 0)

/-- The number of days of a month of the Gregorian calendar. -/
def monthDays (y m : Nat) : Nat :=
  if m = 2 then (if isLeap y then 29 else 28)
  else if m = 4 ∨ m = 6 ∨ m = 9 ∨ m = 11 then 30
  else 31

/-- The day after a date in the Gregorian calendar. -/
def nextDay : Nat × Nat × Nat → Nat × Nat × Nat
  | (y, m, d) =>
    if d < monthDays y m then (y, m, d + 1)
    else if m < 12 then (y, m + 1, 1)
    else (y + 1, 1, 1)

/-- The number that ASCII decimal digits spell. -/
def readDec (str : List Byte) : Nat := str.foldl (fun v b => v * 10 + (b.toNat - 0x30)) 0

end Sys2Proof.Machine
end

