-- ==== Sys2Proof/Certificates/Slice0/Obligations.lean ====
section
/-! DEFINITION. The statements for the provers. Each docstring names the rules of spec/ it formalises. -/

open Sys2Proof Sys2Proof.Machine

/-! The command word. -/

/-- The thirteen command words of 30_encoding.md R87, for every SLEN and every NBITS, and its two examples. -/
def Obligations.TableWordsDecodeToTheirCommands : Prop :=
  decode 0x00000001 = .ok .encode
    ∧ (∀ l : BitVec 8, decode (0#8 ++ l ++ 0x0002#16) = .ok (.decode l.toNat))
    ∧ (∀ l : BitVec 8, decode (0#8 ++ l ++ 0x0003#16) = .ok (.isValidPartial l.toNat))
    ∧ (∀ l : BitVec 8, decode (0#8 ++ l ++ 0x0004#16) = .ok (.isValid l.toNat))
    ∧ (∀ l : BitVec 8, decode (0#8 ++ l ++ 0x0005#16) = .ok (.decodePartial l.toNat))
    ∧ decode 0x00000006 = .ok .pack
    ∧ decode 0x00000007 = .ok .xid
    ∧ decode 0x00000008 = .ok .xidString
    ∧ decode 0x00000009 = .ok .timepoint
    ∧ decode 0x0000000A = .ok .timestamp
    ∧ (∀ n : BitVec 7, decode (0#16 ++ 0#1 ++ n ++ 0x0B#8) = .ok (.randomBits n.toNat))
    ∧ decode 0x0000000C = .ok .random
    ∧ decode 0x0000000D = .ok .randomString
    ∧ decode 0x000B0002 = .ok (.decode 11)
    ∧ decode 0x0000140B = .ok (.randomBits 20)

/-- Decoding the encoding of any well-formed command gives it back (30_encoding.md R70, R71, R74, R87). -/
def Obligations.DecodeOfEncodeIsTheCommand : Prop :=
  ∀ i : Instr, i.WellFormed → decode (encode i) = .ok i

/-- Every word that decodes is the one encoding of a well-formed command: no bit of a legal word is dropped
(30_encoding.md R70, R73). -/
def Obligations.EncodeOfDecodeIsTheWord : Prop :=
  ∀ (w : Word) (i : Instr), decode w = .ok i → i.WellFormed ∧ encode i = w

/-- `legal(CMD)` by its four conditions, by the decoder and by the rows of the opcode table is one set of words. In PHASE =
IDLE any other word completes in its ISSUE step with STATUS = ILLEGAL_COMMAND: no request is made, PHASE stays IDLE and
every result field is 0 (30_encoding.md R73). -/
def Obligations.LegalWordsAreTheTableRowsAndNoOthersRun : Prop :=
  (∀ w : Word,
    (legal w = true ↔
      (1 ≤ w.toNat % 16 ∧ w.toNat % 16 ≤ 13) ∧ w.toNat / 16 % 16 = 0 ∧ w.toNat / 2 ^ 15 % 2 = 0 ∧ w.toNat / 2 ^ 24 = 0
        ∧ (w.toNat / 2 ^ 8 % 128 = 0 ∨ w.toNat % 16 = 11)
        ∧ (w.toNat / 2 ^ 16 % 256 = 0 ∨ (2 ≤ w.toNat % 16 ∧ w.toNat % 16 ≤ 5)))
    ∧ (legal w = true ↔ ∃ i, decode w = .ok i)
    ∧ (legal w = true ↔ ∃ row ∈ opcodeTable, rowMatches w row = true))
  ∧ ∀ (s : State) (c : CmdRec) (clock : U64) (rest : List AgentStep),
    s.inputs = .issue c clock :: rest → s.phase = .idle → legal c.cmd = false →
    ∃ x, step s = .next { s with inputs := rest, clock := clock, latched := some c, resp := x }
      ∧ RespIs x 1#4 0#64 false []

/-! The steps of the agents. -/

/-- A step whose agent is HOST with a legal command, in PHASE = IDLE, is exec of that command on the state in which RESP
is zero and the command is latched (10_state.md R37). -/
def Obligations.StepRunsTheDecodedCommand : Prop :=
  ∀ (s : State) (c : CmdRec) (clock : U64) (rest : List AgentStep) (i : Instr),
    s.inputs = .issue c clock :: rest → s.phase = .idle → decode c.cmd = .ok i →
    step s = exec i { s with inputs := rest, clock := clock, latched := some c, resp := Resp.zero }

/-- ISSUE in PHASE = IDLE: an illegal word ends with ILLEGAL_COMMAND. A legal command that makes no request runs on the
latched operands and completes in this step, PHASE staying IDLE, with a valid response (RANGE_ERROR for a RANDOM_BITS above
64). One that makes a request of k bytes leaves RESP zero and waits, its clock sample taken in this step for XID and
XID_STRING alone (10_state.md R37, R38). -/
def Obligations.AcceptanceCompletesOrWaitsForEntropy : Prop :=
  ∀ (s : State) (c : CmdRec) (clock : U64) (rest : List AgentStep),
    s.inputs = .issue c clock :: rest → s.phase = .idle →
    (legal c.cmd = false → ∃ x,
      step s = .next { s with inputs := rest, clock := clock, latched := some c, resp := x } ∧ RespIs x 1#4 0#64 false [])
    ∧ ∀ i, decode c.cmd = .ok i →
      step s = exec i { s with inputs := rest, clock := clock, latched := some c, resp := Resp.zero }
      ∧ match requestOf i with
        | none => ∃ x, step s = .next { s with inputs := rest, clock := clock, latched := some c, resp := x }
            ∧ x.valid = true ∧ RespOk x ∧ (classOf i = .pure ∨ RespIs x 2#4 0#64 false [])
        | some k => step s = .next
            { s with inputs := rest, clock := clock, latched := some c, resp := Resp.zero, phase := .waitEntropy,
                     pending := some { cmd := c, k := k, req := s.nextRequest,
                                       clk := if classOf i = .entropyClock then some clock else none },
                     nextRequest := s.nextRequest + 1 }

/-- HOST's ISSUE is taken exactly in PHASE = IDLE, and PHASE = WAIT_ENTROPY ends only by an answer to the pending request or
by RESET (10_state.md R35). -/
def Obligations.IssueIsTakenExactlyInIdle : Prop :=
  (∀ (s : State) (c : CmdRec) (clock : U64) (rest : List AgentStep),
    s.inputs = .issue c clock :: rest → ((∃ t, step s = .next t) ↔ s.phase = .idle))
  ∧ ∀ (s t : State) (p : Pending), s.phase = .waitEntropy → s.pending = some p → step s = .next t → t.phase = .idle →
    ∃ e rest, s.inputs = e :: rest ∧ (e = .reset ∨ ∃ ans, e = .answer p.req ans)

/-- A response stays in RESP until the next ISSUE or RESET, over any number of steps; the acceptance of the next command
clears it to zero before the command runs (70_reset_and_hazards.md R235). -/
def Obligations.AResponseLastsUntilIssueOrReset : Prop :=
  (∀ (s t : State) (n : Nat), s.phase = .idle → (∀ e ∈ s.inputs, e ≠ .reset ∧ ∀ c clock, e ≠ .issue c clock) →
    Runs n s t → t.resp = s.resp ∧ t.phase = .idle)
  ∧ ∀ (s : State) (c : CmdRec) (clock : U64) (rest : List AgentStep) (i : Instr),
    s.inputs = .issue c clock :: rest → s.phase = .idle → decode c.cmd = .ok i →
    step s = exec i { s with inputs := rest, clock := clock, latched := some c, resp := Resp.zero }

/-- V becomes 1 only by ISSUE of DECODE, DECODE_PARTIAL, IS_VALID or IS_VALID_PARTIAL: every other step leaves RESP as it is
or leaves V = 0 (10_state.md R30). -/
def Obligations.OnlyValidationCommandsSetV : Prop :=
  ∀ s t : State, step s = .next t → t.resp.v = true →
    t.resp = s.resp ∨ ∃ c clock rest slen, s.inputs = .issue c clock :: rest ∧ t.resp.status = 0#4 ∧ t.resp.valid = true
      ∧ (decode c.cmd = .ok (.decode slen) ∨ decode c.cmd = .ok (.decodePartial slen)
        ∨ decode c.cmd = .ok (.isValid slen) ∨ decode c.cmd = .ok (.isValidPartial slen))

/-- While WAIT_ENTROPY a host that would issue is refused (70_reset_and_hazards.md R234); the refusal's name is the model's
(log entry 9). -/
def Obligations.IssueIsRefusedWhileWaiting : Prop :=
  ∀ (s : State) (c : CmdRec) (clock : U64) (rest : List AgentStep),
    s.inputs = .issue c clock :: rest → s.phase = .waitEntropy → step s = .refused .issueWhileWaiting

/-- READ is enabled in every state, gives HOST the current RESP and changes nothing of the block (10_state.md R42). What HOST
got stands in `reads`, the model's own field (log entry 8). -/
def Obligations.ReadReturnsTheResponse : Prop :=
  ∀ (s : State) (rest : List AgentStep),
    s.inputs = .read :: rest → step s = .next { s with inputs := rest, reads := s.resp :: s.reads }

/-- RESET in any state gives every piece of the block's state its reset value: PHASE IDLE, PENDING none, RESP zero in
every field, no command latched; the command in progress, if one is, is abandoned with its clock sample and its request is
then a withdrawn one (10_state.md R43, 70_reset_and_hazards.md R230). -/
def Obligations.ResetClearsTheBlock : Prop :=
  ∀ (s : State) (rest : List AgentStep),
    s.inputs = .reset :: rest →
    ∃ t, step s = .next t
      ∧ t.phase = .idle ∧ t.pending = none ∧ t.latched = none
      ∧ t.resp.valid = false ∧ t.resp.status = 0#4 ∧ t.resp.r = 0#64 ∧ t.resp.v = false ∧ t.resp.olen = 0#5
      ∧ t.resp.ostr.toList = List.replicate 24 0#8
      ∧ t.withdrawn = (s.pending.map Pending.req).toList ++ s.withdrawn

/-- RESET leaves the agents' own data as they are: the steps to come, what CLOCK shows, the request counter and the responses
HOST has read. This is the model's choice (log entry 15). -/
def Obligations.ResetLeavesTheAgentsAlone : Prop :=
  ∀ (s : State) (rest : List AgentStep),
    s.inputs = .reset :: rest →
    ∃ t, step s = .next t ∧ t.inputs = rest ∧ t.clock = s.clock ∧ t.nextRequest = s.nextRequest ∧ t.reads = s.reads

/-- An answer to a request that RESET withdrew is discarded: nothing of the block changes
(70_reset_and_hazards.md R231). That the number then leaves the withdrawn ones is the model's choice (log entry 5). -/
def Obligations.LateAnswersAreDiscarded : Prop :=
  ∀ (s : State) (req : Nat) (ans : Answer) (rest : List AgentStep),
    s.inputs = .answer req ans :: rest → req ∈ s.withdrawn →
    ∃ t, step s = .next t ∧ SameBlock s t
      ∧ t.inputs = rest ∧ t.clock = s.clock ∧ t.nextRequest = s.nextRequest ∧ t.reads = s.reads
      ∧ t.withdrawn = s.withdrawn.erase req

/-- An answer to a request made before a RESET can never complete a command issued after it, whatever runs in between
(70_reset_and_hazards.md R231). -/
def Obligations.NoAnswerFromBeforeResetCompletesACommand : Prop :=
  ∀ (s t u v : State) (p : Pending) (n : Nat) (ans : Answer) (rest rest' : List AgentStep),
    s.Inv → s.pending = some p → s.inputs = .reset :: rest → step s = .next t →
    Runs n t u → step (withAnswer p.req ans rest' u) = .next v → SameBlock u v

/-- A request is answered at most once: after the answer that completed a command, and after any run from there (a later
command may wait under another request number, a RESET may have come), another answer to the same request is no step of
the machine (10_state.md R40; the refusal is log entry 9). -/
def Obligations.ARequestIsAnsweredOnce : Prop :=
  ∀ (s t u : State) (p : Pending) (n : Nat) (ans ans' : Answer) (rest rest' : List AgentStep),
    s.Inv → s.pending = some p → step (withAnswer p.req ans rest s) = .next t → Runs n t u →
    step (withAnswer p.req ans' rest' u) = .refused .answerToNoOpenRequest

/-- An UNAVAILABLE answer ends any waiting command with STATUS = ENTROPY_UNAVAILABLE and no result: there is no fallback
(10_state.md R40, 42_randomness.md R186, 60_exceptions.md R201). -/
def Obligations.UnavailableEntropyEndsTheCommand : Prop :=
  ∀ (s : State) (p : Pending) (rest : List AgentStep),
    s.phase = .waitEntropy → s.pending = some p → p.req ∉ s.withdrawn →
    ∃ x, step (withAnswer p.req .unavailable rest s) = .next (ended x rest s) ∧ RespIs x 4#4 0#64 false []

/-- While a command waits, and as long as neither an answer to its request nor a RESET comes, the block stays in
WAIT_ENTROPY with RESP unchanged, for any number of steps: no timeout and no default answer (10_state.md R41). -/
def Obligations.WaitingLastsUntilAnswerOrReset : Prop :=
  ∀ (s t : State) (p : Pending) (n : Nat),
    s.phase = .waitEntropy → s.pending = some p →
    (∀ e ∈ s.inputs, e ≠ .reset ∧ ∀ ans, e ≠ .answer p.req ans) →
    Runs n s t → SameBlock s t

/-! The invariant. -/

/-- The reset state meets the invariant. -/
def Obligations.ResetStateMeetsTheInvariant : Prop := State.reset.Inv

/-- Every step keeps the invariant: PHASE and PENDING agree, RESP is zero while a command waits and a legal record else
(STATUS at most 4, OLEN 0, 11 or 24, unused bytes 0, nothing beside an error code), PENDING is one that ISSUE makes, and
its request is open (10_state.md R26, R27, R28; 20_memory.md R55; 30_encoding.md R78, R79). -/
def Obligations.EveryStepKeepsTheInvariant : Prop :=
  ∀ s t : State, s.Inv → step s = .next t → t.Inv

/-- From a state that meets the invariant the machine never faults, and it takes the next agent's step exactly where the
spec enables it; with no step to come it stays as it is, the model's choice of log entry 2. That a withdrawn request may
be answered with any number of bytes, and once, is log entry 5 (10_state.md R34, R35, R40, R42; 70_reset_and_hazards.md R230, R231). -/
def Obligations.StepsAreTakenExactlyWhenEnabled : Prop :=
  ∀ s : State, s.Inv →
    (∀ f, step s ≠ .fault f)
    ∧ (s.inputs = [] → step s = .next s)
    ∧ ∀ e rest, s.inputs = e :: rest → ((∃ t, step s = .next t) ↔ Enabled e s)

/-! What commands leave alone, and what their results depend on. -/

/-- Frame of the pure commands ENCODE, DECODE, IS_VALID_PARTIAL, IS_VALID, DECODE_PARTIAL, PACK, TIMEPOINT and TIMESTAMP:
each completes in its ISSUE step, writes RESP whole and nothing else, PHASE staying as it is (10_state.md R36, R38). -/
def Obligations.PureCommandsWriteOnlyTheResponse : Prop :=
  ∀ (i : Instr) (s : State), i.WellFormed → classOf i = .pure →
    ∃ x, exec i s = .next { s with resp := x } ∧ x.valid = true ∧ RespOk x

/-- Frame of the entropy commands XID, XID_STRING, RANDOM_BITS, RANDOM and RANDOM_STRING: the ISSUE half either writes
RESP alone (RANGE_ERROR) or writes PENDING, PHASE and the request number alone (10_state.md R37, R39). -/
def Obligations.EntropyCommandsWriteOnlyTheRequest : Prop :=
  ∀ (i : Instr) (s : State), classOf i ≠ .pure →
    match requestOf i with
    | none => ∃ x, exec i s = .next { s with resp := x } ∧ RespIs x 2#4 0#64 false []
    | some k => ∃ p, exec i s = .next { s with pending := some p, phase := .waitEntropy, nextRequest := s.nextRequest + 1 }
        ∧ p.k = k ∧ p.req = s.nextRequest ∧ p.clk = (if classOf i = .entropyClock then some s.clock else none)
        ∧ ∀ c, s.latched = some c → p.cmd = c

/-- Only XID and XID_STRING sample the clock: the next state of every other command is the same whatever CLOCK shows
(10_state.md R32, R36). -/
def Obligations.OtherCommandsNeverReadTheClock : Prop :=
  ∀ (i : Instr) (s t : State) (clock : U64), classOf i ≠ .entropyClock →
    exec i s = .next t → exec i { s with clock := clock } = .next { t with clock := clock }

/-- A command's response depends on its own word, operands and draws alone: two states that differ in every earlier
command, response and read give the same response at ISSUE, and at ANSWER the response depends on the command word, the
clock sample and the answer alone, for an entropy command reads no data operand (10_state.md R21, derived there from R37
and R40; 30_encoding.md R72). -/
def Obligations.ResponsesDoNotDependOnEarlierCommands : Prop :=
  (∀ (s s' : State) (c : CmdRec) (clock : U64) (rest rest' : List AgentStep),
    s.phase = .idle → s'.phase = .idle → s.inputs = .issue c clock :: rest → s'.inputs = .issue c clock :: rest' →
    s.pending = none → s'.pending = none →
    ∃ t t', step s = .next t ∧ step s' = .next t' ∧ t.resp = t'.resp ∧ t.phase = t'.phase ∧ t.latched = t'.latched
      ∧ t.pending.map (fun p => (p.cmd, p.k, p.clk)) = t'.pending.map (fun p => (p.cmd, p.k, p.clk)))
  ∧ ∀ (s s' t : State) (p p' : Pending) (ans : Answer) (rest rest' : List AgentStep),
    s.Inv → s'.Inv → s.pending = some p → s'.pending = some p' → p.cmd.cmd = p'.cmd.cmd → p.clk = p'.clk →
    step (withAnswer p.req ans rest s) = .next t →
    ∃ t', step (withAnswer p'.req ans rest' s') = .next t' ∧ t.resp = t'.resp ∧ t.phase = t'.phase ∧ t.pending = t'.pending

/-- A data operand that a command does not read is ignored: ENCODE, TIMEPOINT and TIMESTAMP read A alone, PACK reads A
and B, the string commands read the bytes of S below SLEN (30_encoding.md R72, R76). -/
def Obligations.UnreadOperandsAreIgnored : Prop :=
  ∀ (s : State) (c c' : CmdRec) (slen : Nat),
    (c.a = c'.a → ∀ i ∈ [Instr.encode, .timepoint, .timestamp], ∃ x,
      exec i { s with latched := some c } = .next { s with latched := some c, resp := x }
      ∧ exec i { s with latched := some c' } = .next { s with latched := some c', resp := x })
    ∧ (c.a = c'.a → c.b = c'.b → ∃ x,
      exec .pack { s with latched := some c } = .next { s with latched := some c, resp := x }
      ∧ exec .pack { s with latched := some c' } = .next { s with latched := some c', resp := x })
    ∧ ((∀ j (h : j < 11), j < slen → c.s[j] = c'.s[j]) →
      ∀ i ∈ [Instr.decode slen, .isValidPartial slen, .isValid slen, .decodePartial slen], ∃ x,
      exec i { s with latched := some c } = .next { s with latched := some c, resp := x }
      ∧ exec i { s with latched := some c' } = .next { s with latched := some c', resp := x })

/-- One status is reported, by priority (60_exceptions.md R202): an illegal word gives ILLEGAL_COMMAND whatever its NBITS;
then RANDOM_BITS above 64 gives RANGE_ERROR with no request; then an XID or XID_STRING whose clock sample is below EPOCH_MS
still makes its request, and answers ENTROPY_UNAVAILABLE rather than TIME_UNDERFLOW. -/
def Obligations.ErrorsAreReportedByPriority : Prop :=
  ∀ (s : State) (c : CmdRec) (clock : U64) (rest : List AgentStep),
    s.inputs = .issue c clock :: rest → s.phase = .idle → s.nextRequest ∉ s.withdrawn →
    (legal c.cmd = false → ∃ t, step s = .next t ∧ RespIs t.resp 1#4 0#64 false []
      ∧ t.phase = .idle ∧ t.pending = s.pending ∧ t.nextRequest = s.nextRequest)
    ∧ (∀ n, decode c.cmd = .ok (.randomBits n) → 64 < n → ∃ t, step s = .next t ∧ RespIs t.resp 2#4 0#64 false []
      ∧ t.phase = .idle ∧ t.pending = s.pending ∧ t.nextRequest = s.nextRequest)
    ∧ ((decode c.cmd = .ok .xid ∨ decode c.cmd = .ok .xidString) → clock.toNat < Config.epochMs →
      ∃ t, step s = .next t ∧ t.phase = .waitEntropy ∧ t.nextRequest = s.nextRequest + 1
        ∧ (∃ u, step (withAnswer s.nextRequest .unavailable rest t) = .next u ∧ RespIs u.resp 4#4 0#64 false [])
        ∧ ∀ e : List Byte, e.length = 3 → ∃ u, step (withAnswer s.nextRequest (.bytes e) rest t) = .next u
          ∧ (if Config.packUnderflow = .wrap then u.resp.status = 0#4 else RespIs u.resp 3#4 0#64 false []))

/-! The codec. -/

/-- REV inverts ALPHA, and ALPHA ascends in byte order (10_state.md R22, R24; the contents are the spec's derivation D28,
log entry 11). -/
def Obligations.RevInvertsAlpha : Prop :=
  (∀ (b : Byte) (d : Nat), rev b = some d ↔ d < 58 ∧ alpha d = b)
    ∧ ∀ d e : Nat, d < e → e < 58 → alpha d < alpha e

/-- ENCODE writes the 11 characters of A in base 58, zero-padded on the left, whose value is A (40_codec.md R101, with its
examples; ALPHA is the table of log entry 11). -/
def Obligations.EncodeWritesTheIdentifier : Prop :=
  decode 0x00000001 = .ok .encode
  ∧ (∀ (s : State) (c : CmdRec), s.latched = some c →
    ∃ x str, exec .encode s = .next { s with resp := x } ∧ RespIs x 0#4 0#64 false str
      ∧ str.length = 11 ∧ alphaValid str = true ∧ val str = c.a.toNat
      ∧ ∀ j, j ≤ 10 → str[j]? = some (alpha (c.a.toNat / 58 ^ (10 - j) % 58)))
  ∧ ∀ q ∈ [(0#64, "11111111111"), (0xFFFFFFFFFFFFFFFF#64, "jpXCZedGfVQ"), (57#64, "1111111111z"),
      (58#64, "11111111121"), (0x0123456789ABCDEF#64, "1C3CPq7c8PY")],
    ∀ (s : State) (c : CmdRec), s.latched = some c → c.a = q.1 →
      ∃ x, exec .encode s = .next { s with resp := x } ∧ outStr x = ascii q.2

/-- The guarded accumulation is the value of the string where it is alphabet-valid and at most 2^64 - 1, and INVALID else;
up to 10 characters the guard never fires (40_codec.md R102, its derived facts (a) and (b)). -/
def Obligations.AccumulationIsTheGuardedValue : Prop :=
  ∀ str : List Byte, str.length ≤ 11 →
    acc str = (if alphaValid str = true ∧ val str ≤ 2 ^ 64 - 1 then some (val str) else none)
    ∧ (str.length ≤ 10 → alphaValid str = true → val str ≤ 58 ^ 10 - 1 ∧ acc str = some (val str))

/-- DECODE gives V = 1 and the value exactly for 11 alphabet characters of value at most 2^64 - 1, and else the invalid
marker V = 0, R = 0 (40_codec.md R103, R104). -/
def Obligations.DecodeGivesTheValueOrInvalid : Prop :=
  (∀ l : BitVec 8, decode (0#8 ++ l ++ 0x0002#16) = .ok (.decode l.toNat))
  ∧ ∀ (s : State) (c : CmdRec) (slen : Nat), s.latched = some c →
    ∃ x, exec (.decode slen) s = .next { s with resp := x } ∧
      (if slen = 11 ∧ alphaValid c.s.toList = true ∧ val c.s.toList ≤ 2 ^ 64 - 1
       then RespIs x 0#4 (BitVec.ofNat 64 (val c.s.toList)) true []
       else RespIs x 0#4 0#64 false [])

/-- IS_VALID_PARTIAL gives V = 1 exactly for at most 11 characters, each of them in the alphabet, whatever their value
(40_codec.md R105). -/
def Obligations.IsValidPartialChecksTheCharacters : Prop :=
  (∀ l : BitVec 8, decode (0#8 ++ l ++ 0x0003#16) = .ok (.isValidPartial l.toNat))
  ∧ ∀ (s : State) (c : CmdRec) (slen : Nat), s.latched = some c →
    ∃ x, exec (.isValidPartial slen) s = .next { s with resp := x }
      ∧ (∃ v, RespIs x 0#4 0#64 v [])
      ∧ (x.v = true ↔ slen ≤ 11 ∧ ∀ j (h : j < 11), j < slen → ∃ d, rev c.s[j] = some d)

/-- IS_VALID gives V = 1 exactly for 11 characters, each of them in the alphabet, whatever their value
(40_codec.md R106). -/
def Obligations.IsValidChecksLengthAndCharacters : Prop :=
  (∀ l : BitVec 8, decode (0#8 ++ l ++ 0x0004#16) = .ok (.isValid l.toNat))
  ∧ ∀ (s : State) (c : CmdRec) (slen : Nat), s.latched = some c →
    ∃ x, exec (.isValid slen) s = .next { s with resp := x }
      ∧ (∃ v, RespIs x 0#4 0#64 v [])
      ∧ (x.v = true ↔ slen = 11 ∧ ∀ j (h : j < 11), ∃ d, rev c.s[j] = some d)

/-- DECODE_PARTIAL gives V = 1 and the value left-justified by 58^(11 - k) exactly for at most 11 alphabet characters whose
left-justified value is at most 2^64 - 1, and else the invalid marker (40_codec.md R107, R108: above 2^64 - 1 the spec's
choice D10, log entry 13). -/
def Obligations.DecodePartialLeftJustifies : Prop :=
  (∀ l : BitVec 8, decode (0#8 ++ l ++ 0x0005#16) = .ok (.decodePartial l.toNat))
  ∧ ∀ (s : State) (c : CmdRec) (slen : Nat), s.latched = some c →
    ∃ x, exec (.decodePartial slen) s = .next { s with resp := x } ∧
      (if slen ≤ 11 ∧ alphaValid (c.s.toList.take slen) = true
          ∧ val (c.s.toList.take slen) * 58 ^ (11 - slen) ≤ 2 ^ 64 - 1
       then RespIs x 0#4 (BitVec.ofNat 64 (val (c.s.toList.take slen) * 58 ^ (11 - slen))) true []
       else RespIs x 0#4 0#64 false [])

/-- Any byte outside the alphabet among the presented ones, and any length above 11, gives V = 0 and R = 0 from DECODE,
IS_VALID, IS_VALID_PARTIAL and DECODE_PARTIAL, whatever the bytes (30_encoding.md R77, 40_codec.md R112). -/
def Obligations.BadStringsAreRejectedByAllFour : Prop :=
  ∀ (s : State) (c : CmdRec) (slen : Nat), s.latched = some c →
    (11 < slen ∨ ∃ j, ∃ h : j < 11, j < slen ∧ rev c.s[j] = none) →
    ∀ i ∈ [Instr.decode slen, .isValid slen, .isValidPartial slen, .decodePartial slen],
      ∃ x, exec i s = .next { s with resp := x } ∧ RespIs x 0#4 0#64 false []

/-- ENCODE and DECODE are inverse: decoding the 11 characters of any 64-bit value gives it with V = 1, and encoding the
value of any string that DECODE accepts gives the string back (40_codec.md R109, derived there). -/
def Obligations.EncodeAndDecodeAreInverse : Prop :=
  (∀ (s : State) (c : CmdRec), s.latched = some c →
    ∃ t, exec .encode s = .next t ∧ t.resp.olen = 11#5 ∧
      ∀ (s' : State) (w : Word), ∃ u,
        exec (.decode 11) { s' with latched := some (stringRec w (outStr t.resp)) } = .next u
          ∧ u.resp.v = true ∧ u.resp.r = c.a)
  ∧ ∀ (s t : State) (c : CmdRec), s.latched = some c → exec (.decode 11) s = .next t → t.resp.v = true →
    ∀ (s' : State) (c' : CmdRec), s'.latched = some c' → c'.a = t.resp.r →
      ∃ u, exec .encode s' = .next u ∧ outStr u.resp = c.s.toList

/-- DECODE_PARTIAL of the first k characters of a string that DECODE accepts with value x gives V = 1 and
x - (x mod 58^(11 - k)), the smallest value with that beginning (40_codec.md R110, derived there). -/
def Obligations.PartialDecodeIsTheLeastWithThatBeginning : Prop :=
  ∀ (s t : State) (c : CmdRec) (k : Nat), s.latched = some c → k ≤ 11 →
    exec (.decode 11) s = .next t → t.resp.v = true →
    ∃ u, exec (.decodePartial k) s = .next u ∧ u.resp.v = true
      ∧ u.resp.r.toNat = t.resp.r.toNat - t.resp.r.toNat % 58 ^ (11 - k)

/-- IS_VALID accepts and DECODE rejects exactly the 11-character alphabet strings of value above 2^64 - 1, among them
every one that begins with a character above `j` (40_codec.md R111, derived there). -/
def Obligations.ValidStringsAboveRangeDoNotDecode : Prop :=
  ∀ (s : State) (c : CmdRec), s.latched = some c →
    ((∃ t u, exec (.isValid 11) s = .next t ∧ t.resp.v = true ∧ exec (.decode 11) s = .next u ∧ u.resp.v = false)
      ↔ alphaValid c.s.toList = true ∧ 2 ^ 64 - 1 < val c.s.toList)
    ∧ (alphaValid c.s.toList = true → 0x6A#8 < c.s[0] → 2 ^ 64 - 1 < val c.s.toList)

/-- On strings of one length over the alphabet, byte-wise order is the order of the values (30_encoding.md R80, derived
there from the ascending ALPHA). -/
def Obligations.StringOrderIsNumericOrder : Prop :=
  ∀ str str' : List Byte, str.length = str'.length → alphaValid str = true → alphaValid str' = true →
    (str < str' ↔ val str < val str')

/-! The bit packer. -/

/-- PACK writes the payload whose high 44 bits are the time since EPOCH_MS mod 2^44 and whose low 20 bits are those of B;
below EPOCH_MS an ERROR build answers TIME_UNDERFLOW and a WRAP build packs the difference mod 2^64
(41_bitpacker.md R140, R142, R143). -/
def Obligations.PackWritesThePayload : Prop :=
  decode 0x00000006 = .ok .pack
  ∧ ∀ (s : State) (c : CmdRec), s.latched = some c →
    ∃ x, exec .pack s = .next { s with resp := x } ∧
      (if Packs c.a.toNat then RespIs x 0#4 (BitVec.ofNat 64 (payloadOf c.a.toNat c.b.toNat)) false []
       else RespIs x 3#4 0#64 false [])

/-- Field law of packcore in both builds: the two fields are the difference mod 2^44 and r mod 2^20; UNDERFLOW is exactly
a time below EPOCH_MS in an ERROR build (41_bitpacker.md R141, derived there, and R143). -/
def Obligations.PackedFieldsDoNotOverlap : Prop :=
  ∀ (build : PackUnderflow) (t r : U64),
    (packcore build t r = none ↔ build = .error ∧ t.toNat < Config.epochMs)
    ∧ ∀ p, packcore build t r = some p →
      p.toNat / 2 ^ 20 = timeSinceEpoch t.toNat % 2 ^ 44 ∧ p.toNat % 2 ^ 20 = r.toNat % 2 ^ 20
        ∧ (Config.epochMs ≤ t.toNat → timeSinceEpoch t.toNat = t.toNat - Config.epochMs)

/-- XID: its ISSUE half samples the clock once and requests 3 bytes; the answer e0 e1 e2 completes it with the payload of
the sample and the 20 bits (e0 mod 16) e1 e2, or with TIME_UNDERFLOW, and UNAVAILABLE ends it with ENTROPY_UNAVAILABLE
(41_bitpacker.md R144, R145). -/
def Obligations.XidCompletesWithThePayload : Prop :=
  decode 0x00000007 = .ok .xid
  ∧ ∀ (s : State) (c : CmdRec) (rest : List AgentStep) (e0 e1 e2 : Byte),
    s.latched = some c → decode c.cmd = .ok .xid → s.nextRequest ∉ s.withdrawn →
    exec .xid s = .next (waiting c 3 (some s.clock) s)
    ∧ (∃ x, step (withAnswer s.nextRequest (.bytes [e0, e1, e2]) rest (waiting c 3 (some s.clock) s))
          = .next (ended x rest (waiting c 3 (some s.clock) s))
      ∧ (if Packs s.clock.toNat
         then RespIs x 0#4 (BitVec.ofNat 64
            (payloadOf s.clock.toNat (e0.toNat % 16 * 2 ^ 16 + e1.toNat * 2 ^ 8 + e2.toNat))) false []
         else RespIs x 3#4 0#64 false []))
    ∧ ∃ y, step (withAnswer s.nextRequest .unavailable rest (waiting c 3 (some s.clock) s))
          = .next (ended y rest (waiting c 3 (some s.clock) s))
      ∧ RespIs y 4#4 0#64 false []

/-- XID_STRING: as XID, but the answer completes it with the identifier whose value is the payload XID would give for the
same draws, and R = 0 (41_bitpacker.md R146). -/
def Obligations.XidStringCompletesWithTheIdentifier : Prop :=
  decode 0x00000008 = .ok .xidString
  ∧ ∀ (s : State) (c : CmdRec) (rest : List AgentStep) (e0 e1 e2 : Byte),
    s.latched = some c → decode c.cmd = .ok .xidString → s.nextRequest ∉ s.withdrawn →
    exec .xidString s = .next (waiting c 3 (some s.clock) s)
    ∧ (∃ x, step (withAnswer s.nextRequest (.bytes [e0, e1, e2]) rest (waiting c 3 (some s.clock) s))
          = .next (ended x rest (waiting c 3 (some s.clock) s))
      ∧ (if Packs s.clock.toNat
         then ∃ str, RespIs x 0#4 0#64 false str ∧ str.length = 11 ∧ alphaValid str = true
            ∧ val str = payloadOf s.clock.toNat (e0.toNat % 16 * 2 ^ 16 + e1.toNat * 2 ^ 8 + e2.toNat)
         else RespIs x 3#4 0#64 false []))
    ∧ ∃ y, step (withAnswer s.nextRequest .unavailable rest (waiting c 3 (some s.clock) s))
          = .next (ended y rest (waiting c 3 (some s.clock) s))
      ∧ RespIs y 4#4 0#64 false []

/-- TIMEPOINT writes EPOCH_MS plus the high 44 bits of A, for every A, in [1321009871111, 18913195915526]
(41_bitpacker.md R147). -/
def Obligations.TimepointAddsTheEpoch : Prop :=
  decode 0x00000009 = .ok .timepoint
  ∧ ∀ (s : State) (c : CmdRec), s.latched = some c →
    ∃ x r, exec .timepoint s = .next { s with resp := x } ∧ RespIs x 0#4 r false []
      ∧ r.toNat = c.a.toNat / 2 ^ 20 + 1321009871111 ∧ 1321009871111 ≤ r.toNat ∧ r.toNat ≤ 18913195915526

/-- TIMESTAMP writes the 24 bytes YYYY-MM-DDThh:mm:ss.sssZ of the time TIMEPOINT gives: the separators stand where the
layout has them, every other byte is a digit, and the digits read back are the date `civil` gives and the time of day, in
range (30_encoding.md R82; 41_bitpacker.md R149, R150; the layout is the spec's decision D15, log entry 12). -/
def Obligations.TimestampSpellsTheTime : Prop :=
  decode 0x0000000A = .ok .timestamp
  ∧ ∀ (s : State) (c : CmdRec), s.latched = some c →
    ∃ x text, exec .timestamp s = .next { s with resp := x } ∧ RespIs x 0#4 0#64 false text ∧ text.length = 24
      ∧ (∀ q ∈ [(4, 0x2D#8), (7, 0x2D#8), (10, 0x54#8), (13, 0x3A#8), (16, 0x3A#8), (19, 0x2E#8), (23, 0x5A#8)],
          text[q.1]? = some q.2)
      ∧ (∀ j ∈ [0, 1, 2, 3, 5, 6, 8, 9, 11, 12, 14, 15, 17, 18, 20, 21, 22],
          ∃ b, text[j]? = some b ∧ 0x30 ≤ b.toNat ∧ b.toNat ≤ 0x39)
      ∧ (let T := c.a.toNat / 2 ^ 20 + 1321009871111
         let field := fun (i n : Nat) => readDec ((text.drop i).take n)
         civil (T / 86400000) = (field 0 4, field 5 2, field 8 2)
         ∧ 2011 ≤ field 0 4 ∧ field 0 4 ≤ 2569
         ∧ field 11 2 < 24 ∧ field 14 2 < 60 ∧ field 17 2 < 60 ∧ field 20 3 < 1000
         ∧ field 11 2 * 3600000 + field 14 2 * 60000 + field 17 2 * 1000 + field 20 3 = T % 86400000)

/-- `civil` counts the days of the proleptic Gregorian calendar: day 0 is 1970-01-01, and each day is followed by the next
day of the calendar, by the lengths of its months and its leap years (41_bitpacker.md R148, which the spec takes from
general knowledge; log entry 12). -/
def Obligations.CivilWalksTheGregorianCalendar : Prop :=
  civil 0 = (1970, 1, 1) ∧ ∀ z, civil (z + 1) = nextDay (civil z)

/-- TIMEPOINT of what PACK wrote is EPOCH_MS plus the packed difference mod 2^44: for a time not below EPOCH_MS it is that
time exactly where it is at most 18913195915526, whatever the random field (41_bitpacker.md R151, derived there). -/
def Obligations.TimepointInvertsPack : Prop :=
  ∀ (s t : State) (c : CmdRec), s.latched = some c → exec .pack s = .next t → t.resp.status = 0#4 →
    ∀ (s' : State) (c' : CmdRec), s'.latched = some c' → c'.a = t.resp.r →
      ∃ u, exec .timepoint s' = .next u
        ∧ u.resp.r.toNat = 1321009871111 + timeSinceEpoch c.a.toNat % 2 ^ 44
        ∧ (1321009871111 ≤ c.a.toNat → (u.resp.r = c.a ↔ c.a.toNat ≤ 18913195915526))

/-! The random source. -/

/-- RANDOM_BITS of n in 0..64: its ISSUE half requests (n + 7) div 8 bytes, and their answer completes it with the bytes
read big endian, mod 2^n, or with ENTROPY_UNAVAILABLE; n above 64 gives RANGE_ERROR (42_randomness.md R180, R182). -/
def Obligations.RandomBitsCompletesWithTheMaskedBytes : Prop :=
  (∀ m : BitVec 7, decode (0#16 ++ 0#1 ++ m ++ 0x0B#8) = .ok (.randomBits m.toNat))
  ∧ ∀ (s : State) (c : CmdRec) (rest : List AgentStep) (n : Nat),
    s.latched = some c → decode c.cmd = .ok (.randomBits n) → s.nextRequest ∉ s.withdrawn →
    (64 < n → ∃ x, exec (.randomBits n) s = .next { s with resp := x } ∧ RespIs x 2#4 0#64 false [])
    ∧ (n ≤ 64 →
      exec (.randomBits n) s = .next (waiting c ((n + 7) / 8) none s)
      ∧ (∀ e : List Byte, e.length = (n + 7) / 8 →
        ∃ x, step (withAnswer s.nextRequest (.bytes e) rest (waiting c ((n + 7) / 8) none s))
            = .next (ended x rest (waiting c ((n + 7) / 8) none s))
          ∧ RespIs x 0#4 (BitVec.ofNat 64 (bigEndian e % 2 ^ n)) false [])
      ∧ ∃ y, step (withAnswer s.nextRequest .unavailable rest (waiting c ((n + 7) / 8) none s))
            = .next (ended y rest (waiting c ((n + 7) / 8) none s))
          ∧ RespIs y 4#4 0#64 false [])

/-- RANDOM_BITS of n above 64 completes in its ISSUE step with RANGE_ERROR, with no request and no result
(42_randomness.md R181). -/
def Obligations.RandomBitsAbove64IsARangeError : Prop :=
  ∀ (s : State) (n : Nat), 64 < n →
    ∃ x, exec (.randomBits n) s = .next { s with resp := x } ∧ RespIs x 2#4 0#64 false []

/-- Every answer to RANDOM_BITS n gives a result of at most 2^n - 1, and every value of that range is given by some answer
(42_randomness.md R185, derived there). -/
def Obligations.RandomBitsReachesExactlyItsRange : Prop :=
  ∀ (s : State) (p : Pending) (n : Nat) (rest : List AgentStep),
    s.Inv → s.pending = some p → decode p.cmd.cmd = .ok (.randomBits n) →
    (∀ e t, step (withAnswer p.req (.bytes e) rest s) = .next t → t.resp.status = 0#4 ∧ t.resp.r.toNat ≤ 2 ^ n - 1)
    ∧ ∀ v, v ≤ 2 ^ n - 1 → ∃ e t, step (withAnswer p.req (.bytes e) rest s) = .next t ∧ t.resp.r.toNat = v

/-- RANDOM requests 8 bytes, and their answer completes it with the bytes read big endian, or with ENTROPY_UNAVAILABLE
(42_randomness.md R183). -/
def Obligations.RandomCompletesWithTheEightBytes : Prop :=
  decode 0x0000000C = .ok .random
  ∧ ∀ (s : State) (c : CmdRec) (rest : List AgentStep) (e : List Byte),
    s.latched = some c → decode c.cmd = .ok .random → s.nextRequest ∉ s.withdrawn → e.length = 8 →
    exec .random s = .next (waiting c 8 none s)
    ∧ (∃ x r, step (withAnswer s.nextRequest (.bytes e) rest (waiting c 8 none s))
          = .next (ended x rest (waiting c 8 none s))
      ∧ RespIs x 0#4 r false [] ∧ r.toNat = bigEndian e)
    ∧ ∃ y, step (withAnswer s.nextRequest .unavailable rest (waiting c 8 none s))
          = .next (ended y rest (waiting c 8 none s))
      ∧ RespIs y 4#4 0#64 false []

/-- RANDOM_STRING requests 8 bytes, and their answer completes it with the identifier of the bytes read big endian and
R = 0, or with ENTROPY_UNAVAILABLE (42_randomness.md R184). -/
def Obligations.RandomStringCompletesWithTheIdentifier : Prop :=
  decode 0x0000000D = .ok .randomString
  ∧ ∀ (s : State) (c : CmdRec) (rest : List AgentStep) (e : List Byte),
    s.latched = some c → decode c.cmd = .ok .randomString → s.nextRequest ∉ s.withdrawn → e.length = 8 →
    exec .randomString s = .next (waiting c 8 none s)
    ∧ (∃ x str, step (withAnswer s.nextRequest (.bytes e) rest (waiting c 8 none s))
          = .next (ended x rest (waiting c 8 none s))
      ∧ RespIs x 0#4 0#64 false str ∧ str.length = 11 ∧ alphaValid str = true ∧ val str = bigEndian e)
    ∧ ∃ y, step (withAnswer s.nextRequest .unavailable rest (waiting c 8 none s))
          = .next (ended y rest (waiting c 8 none s))
      ∧ RespIs y 4#4 0#64 false []
end

