-- ==== Sys2Proof/Laws/Response.lean ====
section
/-! SUPPORT. What the response records hold: one spec lemma for `respOf`, from which the other forms follow. -/

namespace Sys2Proof.Machine

theorem ostrOf_toList (out : List Byte) (h : out.length ≤ 24) :
    (ostrOf out).toList = out ++ List.replicate (24 - out.length) 0#8 := by
  show (out ++ List.replicate 24 0#8).take 24 = _
  rw [List.take_append, List.take_of_length_le h, List.take_replicate]
  congr 2
  omega

/-- A response of `respOf` has the given status, results and string, for every string that fits OSTR. -/
theorem respOf_is (status : BitVec 4) (r : U64) (v : Bool) (out : List Byte) (h : out.length ≤ 24) :
    RespIs (respOf status r v out) status r v out := by
  refine ⟨rfl, rfl, rfl, rfl, ?_, ostrOf_toList out h⟩
  show (BitVec.ofNat 5 out.length).toNat = _
  rw [BitVec.toNat_ofNat]
  omega

theorem okNumber_is (r : U64) : RespIs (okNumber r) 0#4 r false [] := respOf_is _ _ _ _ (by simp)
theorem okDecoded_is (r : U64) : RespIs (okDecoded r) 0#4 r true [] := respOf_is _ _ _ _ (by simp)
theorem okInvalid_is : RespIs okInvalid 0#4 0#64 false [] := respOf_is _ _ _ _ (by simp)
theorem okBool_is (v : Bool) : RespIs (okBool v) 0#4 0#64 v [] := respOf_is _ _ _ _ (by simp)
theorem okString_is (out : List Byte) (h : out.length ≤ 24) : RespIs (okString out) 0#4 0#64 false out :=
  respOf_is _ _ _ _ h
theorem errorResp_is (status : BitVec 4) : RespIs (errorResp status) status 0#64 false [] :=
  respOf_is _ _ _ _ (by simp)

/-- The string read out of a response is the string put in. -/
theorem outStr_of_respIs (x : Resp) (status : BitVec 4) (r : U64) (v : Bool) (out : List Byte)
    (h : RespIs x status r v out) : outStr x = out := by
  obtain ⟨-, -, -, -, ho, hs⟩ := h
  simp [outStr, ho, hs]

/-- A response whose string is one of the three lengths, and whose fields keep to 30_encoding.md R79, is a legal
record. -/
theorem respOk_of_respIs (x : Resp) (status : BitVec 4) (r : U64) (v : Bool) (out : List Byte)
    (h : RespIs x status r v out) (hs : status.toNat ≤ 4)
    (hl : out.length = 0 ∨ out.length = 11 ∨ out.length = 24)
    (he : status ≠ Status.ok → r = 0#64 ∧ v = false ∧ out = []) (hr : out ≠ [] → r = 0#64 ∧ v = false) : RespOk x := by
  obtain ⟨hv, rfl, rfl, rfl, ho, hstr⟩ := h
  have h5 : ∀ n : Nat, n < 32 → out.length = n → x.olen = BitVec.ofNat 5 n := fun n hn hnl => by
    apply BitVec.eq_of_toNat_eq
    rw [ho, hnl, BitVec.toNat_ofNat]
    omega
  refine ⟨hs, ?_, ?_, ?_, ?_, ?_⟩
  · rcases hl with h | h | h
    · exact .inl (h5 0 (by omega) h)
    · exact .inr (.inl (h5 11 (by omega) h))
    · exact .inr (.inr (h5 24 (by omega) h))
  · intro i hi
    have : x.ostr[i.val] = x.ostr.toList[i.val]'(by simp) := by simp
    rw [this]
    simp only [hstr]
    rw [List.getElem_append_right (by omega)]
    simp
  · intro hne
    obtain ⟨h1, h2, h3⟩ := he hne
    exact ⟨h1, h2, h5 0 (by omega) (by simp [h3])⟩
  · intro hne
    refine hr fun h0 => hne ?_
    exact h5 0 (by omega) (by simp [h0])
  · simp [hv]

theorem respOk_zero : RespOk Resp.zero := by decide

end Sys2Proof.Machine
end

