-- ==== Sys2Proof/Laws/Codec.lean ====
section
/-! SUPPORT. The tables, the digits of a number, the value of a string and the guarded accumulation, each said once. -/

namespace Sys2Proof.Machine

/-- A digit of REV spells its byte. -/
theorem alpha_of_rev (b : Byte) (d : Nat) (h : rev b = some d) : d < 58 ∧ alpha d = b := by
  have : ∀ b : Byte, ∀ d ∈ rev b, d < 58 ∧ alpha d = b := by decide
  exact this b d h

/-- A character of ALPHA is read back as its digit. -/
theorem rev_alpha (d : Nat) (h : d < 58) : rev (alpha d) = some d := by
  have : ∀ d : Fin 58, rev (alpha d.val) = some d.val := by decide
  exact this ⟨d, h⟩

theorem inAlpha_iff (b : Byte) : inAlpha b = true ↔ ∃ d, rev b = some d := by
  simp [inAlpha, Option.isSome_iff_exists]

theorem inAlpha_alpha (d : Nat) (h : d < 58) : inAlpha (alpha d) = true :=
  (inAlpha_iff _).2 ⟨d, rev_alpha d h⟩

@[simp] theorem digits_length (b n x : Nat) : (digits b n x).length = n := by
  induction n generalizing x with
  | zero => rfl
  | succ n ih => simp [digits, ih]

theorem digits_lt (b n x : Nat) (hb : 0 < b) : ∀ d ∈ digits b n x, d < b := by
  induction n generalizing x with
  | zero => simp [digits]
  | succ n ih =>
    intro d hd
    rcases List.mem_append.1 hd with h | h
    · exact ih _ d h
    · rw [List.mem_singleton.1 h]
      exact Nat.mod_lt _ hb

/-- The digit at index j has the weight b^(n-1-j). -/
theorem digits_getElem? (b n x j : Nat) (hj : j < n) : (digits b n x)[j]? = some (x / b ^ (n - 1 - j) % b) := by
  induction n generalizing x with
  | zero => omega
  | succ n ih =>
    by_cases h : j = n
    · subst h
      simp [digits]
    · have hj' : j < n := by omega
      rw [digits, List.getElem?_append_left (by simpa using hj'), ih _ hj', Nat.div_div_eq_div_mul,
        show n + 1 - 1 - j = n - 1 - j + 1 from by omega, Nat.pow_succ']

@[simp] theorem val_nil : val [] = 0 := rfl

@[simp] theorem val_cons (b : Byte) (str : List Byte) :
    val (b :: str) = (rev b).getD 0 * 58 ^ str.length + val str := rfl

theorem val_append (str str' : List Byte) : val (str ++ str') = val str * 58 ^ str'.length + val str' := by
  induction str with
  | nil => simp
  | cons b str ih =>
    simp only [List.cons_append, val_cons, List.length_append, ih, Nat.pow_add]
    ring

theorem rev_getD_lt (b : Byte) : (rev b).getD 0 < 58 := by
  cases h : rev b with
  | none => simp
  | some d => exact (alpha_of_rev b d h).1

theorem val_lt (str : List Byte) : val str < 58 ^ str.length := by
  induction str with
  | nil => simp
  | cons b str ih =>
    have hb := rev_getD_lt b
    have : ((rev b).getD 0 + 1) * 58 ^ str.length ≤ 58 * 58 ^ str.length := Nat.mul_le_mul_right _ hb
    rw [val_cons, List.length_cons, Nat.pow_succ']
    linarith [Nat.add_mul ((rev b).getD 0) 1 (58 ^ str.length)]

/-- The value of the characters of the digits of x is x, mod 58^n. -/
theorem val_digits (n x : Nat) : val ((digits 58 n x).map alpha) = x % 58 ^ n := by
  induction n generalizing x with
  | zero => simp [digits, Nat.mod_one]
  | succ n ih =>
    rw [digits, List.map_append, val_append, ih, List.map_singleton, val_cons,
      rev_alpha _ (Nat.mod_lt _ (by decide)), Nat.pow_succ', Nat.mod_mul]
    simp
    ring

@[simp] theorem encodeStr_length (x : U64) : (encodeStr x).length = 11 := by simp [encodeStr]

theorem alphaValid_encodeStr (x : U64) : alphaValid (encodeStr x) = true := by
  simp only [alphaValid, encodeStr, List.all_map, List.all_eq_true, Function.comp]
  exact fun d hd => inAlpha_alpha d (digits_lt _ _ _ (by decide) d hd)

theorem val_encodeStr (x : U64) : val (encodeStr x) = x.toNat := by
  rw [encodeStr, val_digits, Nat.mod_eq_of_lt (lt_trans x.isLt (by decide))]

/-- A string of alphabet bytes is the characters of the digits of its value. -/
theorem digits_val (str : List Byte) (h : alphaValid str = true) :
    (digits 58 str.length (val str)).map alpha = str := by
  induction str using List.reverseRecOn with
  | nil => rfl
  | append_singleton str b ih =>
    simp only [alphaValid, List.all_append, Bool.and_eq_true] at h
    obtain ⟨d, hd⟩ := (inAlpha_iff b).1 (by simpa using h.2)
    obtain ⟨hlt, hb⟩ := alpha_of_rev b d hd
    have hv : val (str ++ [b]) = val str * 58 + d := by simp [val_append, hd]
    rw [List.length_append, List.length_singleton, hv, digits, List.map_append,
      show (val str * 58 + d) / 58 = val str from by omega, ih h.1,
      show (val str * 58 + d) % 58 = d from by omega]
    simp [hb]

/-- The guarded accumulation from v says in one line what its loop does. -/
theorem accFrom_eq (v : Nat) (str : List Byte) :
    accFrom v str
      = if alphaValid str = true ∧ (v * 58 ^ str.length + val str ≤ maxU64 ∨ str = [])
        then some (v * 58 ^ str.length + val str) else none := by
  induction str generalizing v with
  | nil => simp [accFrom, alphaValid]
  | cons b str ih =>
    cases hb : rev b with
    | none => simp [accFrom, hb, alphaValid, inAlpha]
    | some d =>
      have hin : inAlpha b = true := (inAlpha_iff b).2 ⟨d, hb⟩
      have hpos : 1 ≤ 58 ^ str.length := Nat.one_le_pow _ _ (by decide)
      have hval : v * 58 ^ (str.length + 1) + (d * 58 ^ str.length + val str)
          = (v * 58 + d) * 58 ^ str.length + val str := by
        rw [Nat.pow_succ']
        ring
      have hle : v * 58 + d ≤ (v * 58 + d) * 58 ^ str.length + val str :=
        le_trans (Nat.le_mul_of_pos_right _ hpos) (Nat.le_add_right _ _)
      have hA : alphaValid (b :: str) = alphaValid str := by simp [alphaValid, hin]
      simp only [accFrom, hb, ih, val_cons, Option.getD_some, List.length_cons, hval, hA]
      by_cases h1 : maxU64 < v * 58 + d
      · have : ¬ (v * 58 + d) * 58 ^ str.length + val str ≤ maxU64 := by omega
        simp [h1, this]
      · rw [if_neg h1]
        cases str with
        | nil => simp [alphaValid, Nat.not_lt.1 h1]
        | cons b' str' => simp

end Sys2Proof.Machine
end

