-- ==== Sys2Proof/Laws/Bitpacker.lean ====
section
/-! SUPPORT. The arithmetic of packing, of the timestamp text and of the entropy bytes, each said once. -/

namespace Sys2Proof.Machine

@[simp] theorem dec_length (n v : Nat) : (dec n v).length = n := by simp [dec]

@[simp] theorem iso_length (t : Nat) : (iso t).length = 24 := by simp [iso]

/-- Decimal digits read back give the number, mod 10^n. -/
theorem readDec_dec (n v : Nat) : readDec (dec n v) = v % 10 ^ n := by
  induction n generalizing v with
  | zero => simp [readDec, dec, digits, Nat.mod_one]
  | succ n ih =>
    have h : dec (n + 1) v = dec n (v / 10) ++ [BitVec.ofNat 8 (0x30 + v % 10)] := by simp [dec, digits]
    have hd : (BitVec.ofNat 8 (0x30 + v % 10)).toNat = 0x30 + v % 10 := by
      rw [BitVec.toNat_ofNat]
      omega
    rw [h, readDec, List.foldl_append, List.foldl_cons, List.foldl_nil, ← readDec, ih, hd, Nat.pow_succ', Nat.mod_mul]
    omega

/-- The difference of packcore as a number, in both builds. -/
theorem toNat_sub_epoch (t : U64) : (t - epoch).toNat = timeSinceEpoch t.toNat := by
  have := t.isLt
  simp only [epoch, timeSinceEpoch, Config.epochMs, BitVec.toNat_sub, BitVec.toNat_ofNat]
  omega

/-- The two fields of a packed payload, side by side. -/
theorem toNat_pack (d r : U64) :
    (d <<< 20 ||| (r &&& mask20)).toNat = d.toNat % 2 ^ 44 * 2 ^ 20 + r.toNat % 2 ^ 20 := by
  have hm : (r &&& mask20).toNat = r.toNat % 2 ^ 20 := by
    rw [BitVec.toNat_and, show mask20.toNat = 2 ^ 20 - 1 from by decide, Nat.and_two_pow_sub_one_eq_mod]
  have hs : (d <<< 20).toNat = (d.toNat % 2 ^ 44) <<< 20 := by
    rw [BitVec.toNat_shiftLeft, Nat.shiftLeft_eq, Nat.shiftLeft_eq,
      show (2 : Nat) ^ 64 = 2 ^ 44 * 2 ^ 20 from by decide, Nat.mul_mod_mul_right]
  rw [BitVec.toNat_or, hm, hs, Nat.shiftLeft_eq, Nat.mul_comm,
    Nat.two_pow_add_eq_or_of_lt (Nat.mod_lt _ (by decide)), Nat.mul_comm]

/-- packcore in every build: the payload of the fields, or UNDERFLOW below EPOCH_MS in an ERROR build. -/
theorem packcore_eq (build : PackUnderflow) (t r : U64) :
    packcore build t r = if Config.epochMs ≤ t.toNat ∨ build = .wrap
      then some (BitVec.ofNat 64 (payloadOf t.toNat r.toNat)) else none := by
  have hp : (t - epoch) <<< 20 ||| (r &&& mask20) = BitVec.ofNat 64 (payloadOf t.toNat r.toNat) := by
    apply BitVec.eq_of_toNat_eq
    rw [toNat_pack, toNat_sub_epoch, BitVec.toNat_ofNat, payloadOf]
    omega
  unfold packcore timeDiff
  by_cases h : Config.epochMs ≤ t.toNat
  · rw [if_pos h, if_pos (.inl h)]
    exact congrArg some hp
  · rw [if_neg h]
    cases build with
    | error => simp [h]
    | wrap => simpa using hp

theorem payloadOf_lt (t r : Nat) : payloadOf t r < 2 ^ 64 := by
  simp only [payloadOf]
  omega

theorem bigEndian_lt (e : List Byte) : bigEndian e < 256 ^ e.length := by
  induction e with
  | nil => simp [bigEndian]
  | cons b e ih =>
    have hb := b.isLt
    have : (b.toNat + 1) * 256 ^ e.length ≤ 256 * 256 ^ e.length := Nat.mul_le_mul_right _ hb
    rw [bigEndian, List.length_cons, Nat.pow_succ']
    linarith [Nat.add_mul b.toNat 1 (256 ^ e.length)]

theorem foldl_bytes (v : Nat) (e : List Byte) :
    e.foldl (fun v b => v * 256 + b.toNat) v = v * 256 ^ e.length + bigEndian e := by
  induction e generalizing v with
  | nil => simp [bigEndian]
  | cons b e ih =>
    rw [List.foldl_cons, ih, bigEndian, List.length_cons, Nat.pow_succ']
    ring

/-- The assembled value is the bytes big endian, mod 2^n, for the number of bytes that n bits take. -/
theorem assemble_eq (n : Nat) (e : List Byte) (h : e.length = entropyBytes n) :
    assemble n e = bigEndian e % 2 ^ n := by
  simp only [assemble, foldl_bytes, Nat.zero_mul, Nat.zero_add]
  split
  · exact Nat.and_two_pow_sub_one_eq_mod _ _
  · refine (Nat.mod_eq_of_lt (lt_of_lt_of_eq (bigEndian_lt e) ?_)).symm
    rw [show (256 : Nat) = 2 ^ 8 from rfl, ← Nat.pow_mul, h, entropyBytes]
    congr 1
    omega

/-- One ASCII decimal digit. -/
def asciiDigit (v : Nat) : Byte := BitVec.ofNat 8 (0x30 + v % 10)

theorem asciiDigit_range (v : Nat) : 0x30 ≤ (asciiDigit v).toNat ∧ (asciiDigit v).toNat ≤ 0x39 := by
  rw [asciiDigit, BitVec.toNat_ofNat]
  omega

theorem dec_two (v : Nat) : dec 2 v = [asciiDigit (v / 10), asciiDigit v] := by simp [dec, digits, asciiDigit]

theorem dec_three (v : Nat) : dec 3 v = [asciiDigit (v / 10 / 10), asciiDigit (v / 10), asciiDigit v] := by
  simp [dec, digits, asciiDigit]

theorem dec_four (v : Nat) :
    dec 4 v = [asciiDigit (v / 10 / 10 / 10), asciiDigit (v / 10 / 10), asciiDigit (v / 10), asciiDigit v] := by
  simp [dec, digits, asciiDigit]

/-- The 24 characters of a timestamp, one by one. -/
theorem iso_eq (t : Nat) :
    let date := civil (t / 86400000)
    let ms := t % 86400000
    iso t = [asciiDigit (date.1 / 10 / 10 / 10), asciiDigit (date.1 / 10 / 10), asciiDigit (date.1 / 10), asciiDigit date.1,
        0x2D, asciiDigit (date.2.1 / 10), asciiDigit date.2.1, 0x2D, asciiDigit (date.2.2 / 10), asciiDigit date.2.2] ++
      [0x54, asciiDigit (ms / 3600000 / 10), asciiDigit (ms / 3600000),
        0x3A, asciiDigit (ms / 60000 % 60 / 10), asciiDigit (ms / 60000 % 60),
        0x3A, asciiDigit (ms / 1000 % 60 / 10), asciiDigit (ms / 1000 % 60),
        0x2E, asciiDigit (ms % 1000 / 10 / 10), asciiDigit (ms % 1000 / 10), asciiDigit (ms % 1000), 0x5A] := by
  simp only [iso, dec_two, dec_three, dec_four, List.cons_append, List.nil_append]

/-- The digit groups of a timestamp. -/
theorem iso_fields (t : Nat) :
    ((iso t).drop 0).take 4 = dec 4 (civil (t / 86400000)).1 ∧ ((iso t).drop 5).take 2 = dec 2 (civil (t / 86400000)).2.1
      ∧ ((iso t).drop 8).take 2 = dec 2 (civil (t / 86400000)).2.2
      ∧ ((iso t).drop 11).take 2 = dec 2 (t % 86400000 / 3600000)
      ∧ ((iso t).drop 14).take 2 = dec 2 (t % 86400000 / 60000 % 60)
      ∧ ((iso t).drop 17).take 2 = dec 2 (t % 86400000 / 1000 % 60)
      ∧ ((iso t).drop 20).take 3 = dec 3 (t % 86400000 % 1000) := by
  rw [iso_eq]
  simp only [dec_two, dec_three, dec_four]
  generalize civil (t / 86400000) = date
  generalize t % 86400000 = ms
  exact ⟨rfl, rfl, rfl, rfl, rfl, rfl, rfl⟩

end Sys2Proof.Machine
end

