-- ==== Sys2Proof/Laws/Calendar.lean ====
section
/-! SUPPORT. What `civil` computes: the day number taken apart into eras of 400 years, years that begin on 1 March and
days of the year, and the date each such day has. -/

namespace Sys2Proof.Machine

/-- The number of days of the year `yoe` of an era, from 1 March to the end of February. -/
def marchYearDays (yoe : Nat) : Nat :=
  if (yoe + 1) % 4 = 0 ∧ ((yoe + 1) % 100 ≠ 0 ∨ (yoe + 1) % 400 = 0) then 366 else 365

/-- The date of day `doy` of the year `yoe` of the era `era`, counted from 1 March (41_bitpacker.md R148). -/
def civilOf (era yoe doy : Nat) : Nat × Nat × Nat :=
  let mp := (5 * doy + 2) / 153
  let d := doy - (153 * mp + 2) / 5 + 1
  let m := if mp < 10 then mp + 3 else mp - 9
  (if m ≤ 2 then yoe + era * 400 + 1 else yoe + era * 400, m, d)

theorem marchYearDays_le (yoe : Nat) : 365 ≤ marchYearDays yoe ∧ marchYearDays yoe ≤ 366 := by
  unfold marchYearDays
  split <;> omega

/-- The year of the era is recovered from the day of the era; the year is given as century, group of four and rest. -/
theorem yearOfEra_eq (a b c doy : Nat) (ha : a < 4) (hb : b < 25) (hc : c < 4)
    (hd : doy < marchYearDays (100 * a + 4 * b + c)) (doe : Nat)
    (hdoe : doe = 36524 * a + 1461 * b + 365 * c + doy) :
    (doe - doe / 1460 + doe / 36524 - doe / 146096) / 365 = 100 * a + 4 * b + c := by
  have hl : doy ≤ 365 := by have := (marchYearDays_le (100 * a + 4 * b + c)).2; omega
  have hlast : doy = 365 → c = 3 ∧ (b < 24 ∨ a = 3) := by
    intro h
    unfold marchYearDays at hd
    split at hd
    · rename_i hy
      exact ⟨by omega, by rcases hy.2 with h | h <;> omega⟩
    · omega
  have h1 : doe / 1460 = 25 * a + b + (24 * a + b + 365 * c + doy) / 1460 := by omega
  have h1' : (24 * a + b + 365 * c + doy) / 1460 ≤ 1 := by omega
  have h2 : doe / 36524 = a + (if 1461 * b + 365 * c + doy ≥ 36524 then 1 else 0) := by split <;> omega
  have h3 : doe / 146096 = (if a = 3 ∧ 1461 * b + 365 * c + doy ≥ 36524 then 1 else 0) := by split <;> omega
  rw [h1, h2, h3]
  split <;> split <;> omega

/-- `civil` of a day that is taken apart. -/
theorem civil_of_day (z era yoe doy : Nat) (hy : yoe < 400) (hd : doy < marchYearDays yoe)
    (hz : z + 719468 = era * 146097 + (365 * yoe + yoe / 4 - yoe / 100) + doy) : civil z = civilOf era yoe doy := by
  have hd' := (marchYearDays_le yoe).2
  have hlt : 365 * yoe + yoe / 4 - yoe / 100 + doy < 146097 := by
    by_cases h : yoe = 399
    · subst h
      omega
    · omega
  have hera : (z + 719468) / 146097 = era := by omega
  have hdoe : z + 719468 - era * 146097 = 365 * yoe + yoe / 4 - yoe / 100 + doy := by omega
  have hyoe : ∀ doe, doe = 365 * yoe + yoe / 4 - yoe / 100 + doy →
      (doe - doe / 1460 + doe / 36524 - doe / 146096) / 365 = yoe := by
    intro doe h
    have hy' : 100 * (yoe / 100) + 4 * (yoe % 100 / 4) + yoe % 4 = yoe := by omega
    refine (yearOfEra_eq (yoe / 100) (yoe % 100 / 4) (yoe % 4) doy (by omega) (by omega) (by omega) ?_ doe ?_).trans hy'
    · rw [hy']
      exact hd
    · omega
  simp only [civil, hera, hdoe]
  rw [hyoe _ rfl]
  simp only [civilOf, show 365 * yoe + yoe / 4 - yoe / 100 + doy - (365 * yoe + yoe / 4 - yoe / 100) = doy from by omega]

/-- Every day number can be taken apart. -/
theorem exists_day (z : Nat) : ∃ era yoe doy, yoe < 400 ∧ doy < marchYearDays yoe
    ∧ z + 719468 = era * 146097 + (365 * yoe + yoe / 4 - yoe / 100) + doy := by
  obtain ⟨doe, hdoe⟩ : ∃ doe, doe = (z + 719468) % 146097 := ⟨_, rfl⟩
  obtain ⟨a, ha⟩ : ∃ a, a = min 3 (doe / 36524) := ⟨_, rfl⟩
  obtain ⟨b, hb⟩ : ∃ b, b = (doe - 36524 * a) / 1461 := ⟨_, rfl⟩
  obtain ⟨c, hc⟩ : ∃ c, c = min 3 ((doe - 36524 * a - 1461 * b) / 365) := ⟨_, rfl⟩
  obtain ⟨doy, hdoy⟩ : ∃ doy, doy = doe - 36524 * a - 1461 * b - 365 * c := ⟨_, rfl⟩
  have hb' : b < 25 := by omega
  have hsum : doe = 36524 * a + 1461 * b + 365 * c + doy := by omega
  have hlast : doy ≤ 364 ∨ (doy = 365 ∧ c = 3 ∧ (b < 24 ∨ a = 3)) := by omega
  have hq4 : (100 * a + 4 * b + c) / 4 = 25 * a + b := by omega
  have hq100 : (100 * a + 4 * b + c) / 100 = a := by omega
  have hz : z + 719468 = (z + 719468) / 146097 * 146097 + doe := by omega
  refine ⟨(z + 719468) / 146097, 100 * a + 4 * b + c, doy, by omega, ?_, by rw [hq4, hq100, hz]; omega⟩
  rcases hlast with h | ⟨h, h3, hba⟩
  · have := (marchYearDays_le (100 * a + 4 * b + c)).1
    omega
  · have : marchYearDays (100 * a + 4 * b + c) = 366 := by
      unfold marchYearDays
      rw [if_pos]
      omega
    omega

/-- The month of day `doy` of a year that begins on 1 March. -/
def monthOf (doy : Nat) : Nat := if (5 * doy + 2) / 153 < 10 then (5 * doy + 2) / 153 + 3 else (5 * doy + 2) / 153 - 9

/-- The day of the month of day `doy` of such a year. -/
def dayOf (doy : Nat) : Nat := doy - (153 * ((5 * doy + 2) / 153) + 2) / 5 + 1

theorem civilOf_eq (era yoe doy : Nat) :
    civilOf era yoe doy
      = (if monthOf doy ≤ 2 then yoe + era * 400 + 1 else yoe + era * 400, monthOf doy, dayOf doy) := rfl

theorem isLeap_march (era yoe : Nat) : isLeap (yoe + era * 400 + 1) = decide (marchYearDays yoe = 366) := by
  unfold isLeap marchYearDays
  by_cases h : (yoe + 1) % 4 = 0 ∧ ((yoe + 1) % 100 ≠ 0 ∨ (yoe + 1) % 400 = 0)
  · rw [if_pos h]
    simp
    omega
  · rw [if_neg h]
    simp
    omega

theorem monthOf_range (doy : Nat) (h : doy < 366) : monthOf doy ≤ 12 ∧ dayOf doy ≤ 31 ∧ (monthOf doy ≤ 2 ↔ 306 ≤ doy) := by
  have h1 : monthOf doy = if (5 * doy + 2) / 153 < 10 then (5 * doy + 2) / 153 + 3 else (5 * doy + 2) / 153 - 9 := rfl
  have h2 : dayOf doy = doy - (153 * ((5 * doy + 2) / 153) + 2) / 5 + 1 := rfl
  generalize hm : (5 * doy + 2) / 153 = mp at *
  refine ⟨?_, by omega, ?_⟩ <;> rw [h1] <;> split <;> omega

/-- The years of the days that TIMESTAMP can produce. -/
theorem civil_range (z : Nat) (h1 : 15289 ≤ z) (h2 : z ≤ 218902) :
    2011 ≤ (civil z).1 ∧ (civil z).1 ≤ 2569 ∧ (civil z).2.1 ≤ 12 ∧ (civil z).2.2 ≤ 31 := by
  obtain ⟨era, yoe, doy, hy, hd, hz⟩ := exists_day z
  rw [civil_of_day z era yoe doy hy hd hz, civilOf_eq]
  have hl := marchYearDays_le yoe
  obtain ⟨a, b, c⟩ := monthOf_range doy (by omega)
  refine ⟨?_, ?_, a, b⟩
  · simp only [c]
    split <;> omega
  · simp only [c]
    split <;> omega

end Sys2Proof.Machine
end

