-- ==== Sys2Proof/Laws/Decode.lean ====
section
/-! SUPPORT. The fields of a command word put together and taken apart, and the decoder by its opcode. -/

namespace Sys2Proof

namespace Cmd

/-- The number a word is, from its fields. -/
theorem toNat_ofFields (o n l : Nat) :
    (ofFields o n l).toNat = l % 256 * 2 ^ 16 + n % 128 * 2 ^ 8 + o % 16 := by
  unfold ofFields
  simp only [BitVec.toNat_append, BitVec.toNat_ofNat]
  rw [← Nat.shiftLeft_add_eq_or_of_lt (Nat.mod_lt o (by decide)),
    ← Nat.shiftLeft_add_eq_or_of_lt (Nat.mod_lt 0 (by decide : 2 ^ 4 > 0)),
    ← Nat.shiftLeft_add_eq_or_of_lt (Nat.mod_lt n (by decide)),
    ← Nat.shiftLeft_add_eq_or_of_lt (Nat.mod_lt 0 (by decide : 2 ^ 1 > 0)),
    ← Nat.shiftLeft_add_eq_or_of_lt (Nat.mod_lt l (by decide))]
  simp only [Nat.shiftLeft_eq]
  omega

theorem op_eq (w : Word) : op w = w.toNat % 16 := by simp [op]
theorem rsv0_eq (w : Word) : rsv0 w = w.toNat / 16 % 16 := by simp [rsv0, Nat.shiftRight_eq_div_pow]
theorem nbits_eq (w : Word) : nbits w = w.toNat / 2 ^ 8 % 128 := by simp [nbits, Nat.shiftRight_eq_div_pow]
theorem rsv1_eq (w : Word) : rsv1 w = w.toNat / 2 ^ 15 % 2 := by simp [rsv1, Nat.shiftRight_eq_div_pow]
theorem slen_eq (w : Word) : slen w = w.toNat / 2 ^ 16 % 256 := by simp [slen, Nat.shiftRight_eq_div_pow]
theorem rsv2_eq (w : Word) : rsv2 w = w.toNat / 2 ^ 24 := by
  have := w.isLt
  simp [rsv2, Nat.shiftRight_eq_div_pow]
  omega

theorem op_ofFields (o n l : Nat) : op (ofFields o n l) = o % 16 := by
  rw [op_eq, toNat_ofFields]
  omega

theorem rsv0_ofFields (o n l : Nat) : rsv0 (ofFields o n l) = 0 := by
  rw [rsv0_eq, toNat_ofFields]
  omega

theorem nbits_ofFields (o n l : Nat) : nbits (ofFields o n l) = n % 128 := by
  rw [nbits_eq, toNat_ofFields]
  omega

theorem rsv1_ofFields (o n l : Nat) : rsv1 (ofFields o n l) = 0 := by
  rw [rsv1_eq, toNat_ofFields]
  omega

theorem slen_ofFields (o n l : Nat) : slen (ofFields o n l) = l % 256 := by
  rw [slen_eq, toNat_ofFields]
  omega

theorem rsv2_ofFields (o n l : Nat) : rsv2 (ofFields o n l) = 0 := by
  rw [rsv2_eq, toNat_ofFields]
  omega

/-- Two words with the same fields are the same word. -/
theorem word_ext (w w' : Word) (ho : op w = op w') (h0 : rsv0 w = rsv0 w') (hn : nbits w = nbits w')
    (h1 : rsv1 w = rsv1 w') (hl : slen w = slen w') (h2 : rsv2 w = rsv2 w') : w = w' := by
  apply BitVec.eq_of_toNat_eq
  rw [op_eq, op_eq] at ho
  rw [rsv0_eq, rsv0_eq] at h0
  rw [nbits_eq, nbits_eq] at hn
  rw [rsv1_eq, rsv1_eq] at h1
  rw [slen_eq, slen_eq] at hl
  rw [rsv2_eq, rsv2_eq] at h2
  omega

/-- A word whose reserved fields are 0 is put together from its other three. -/
theorem ofFields_of_fields (w : Word) (h0 : rsv0 w = 0) (h1 : rsv1 w = 0) (h2 : rsv2 w = 0) :
    ofFields (op w) (nbits w) (slen w) = w := by
  have ho : op w < 16 := (w.extractLsb' 0 4).isLt
  have hn : nbits w < 128 := (w.extractLsb' 8 7).isLt
  have hl : slen w < 256 := (w.extractLsb' 16 8).isLt
  apply word_ext
  · rw [op_ofFields, Nat.mod_eq_of_lt ho]
  · rw [rsv0_ofFields, h0]
  · rw [nbits_ofFields, Nat.mod_eq_of_lt hn]
  · rw [rsv1_ofFields, h1]
  · rw [slen_ofFields, Nat.mod_eq_of_lt hl]
  · rw [rsv2_ofFields, h2]

end Cmd

theorem exists_decodePlain_ok (w : Word) (i : Instr) :
    (∃ j, decodePlain w i = .ok j) ↔ Cmd.nbits w = 0 ∧ Cmd.slen w = 0 := by
  unfold decodePlain
  split_ifs <;> simp_all

theorem exists_decodeWithSlen_ok (w : Word) (mk : Nat → Instr) :
    (∃ j, decodeWithSlen w mk = .ok j) ↔ Cmd.nbits w = 0 := by
  unfold decodeWithSlen
  split_ifs <;> simp_all

theorem exists_decodeWithNbits_ok (w : Word) (mk : Nat → Instr) :
    (∃ j, decodeWithNbits w mk = .ok j) ↔ Cmd.slen w = 0 := by
  unfold decodeWithNbits
  split_ifs <;> simp_all

/-- The mask of the string rows keeps all but SLEN. -/
theorem toNat_and_slen_mask (w : Word) :
    (w &&& 0xFF00FFFF#32).toNat = w.toNat / 2 ^ 24 * 2 ^ 24 + w.toNat % 2 ^ 16 := by
  have key : ∀ (a b : BitVec 8) (c : BitVec 16),
      ((a ++ b ++ c : BitVec (8 + 8 + 16)) &&& (0xFF#8 ++ 0#8 ++ 0xFFFF#16)).toNat = a.toNat * 2 ^ 24 + c.toNat := by
    intro a b c
    have h16 : ∀ i (h : i < 16), (0xFFFF#16)[i] = true := by decide
    have h8 : ∀ i (h : i < 8), (0xFF#8)[i] = true := by decide
    have : (a ++ b ++ c : BitVec (8 + 8 + 16)) &&& (0xFF#8 ++ 0#8 ++ 0xFFFF#16) = a ++ 0#8 ++ c := by
      ext i hi
      simp only [BitVec.getElem_and, BitVec.getElem_append]
      split
      · simp [h16]
      · split
        · simp
        · simp [h8]
    rw [this, BitVec.toNat_append, BitVec.toNat_append, ← Nat.shiftLeft_add_eq_or_of_lt c.isLt,
      ← Nat.shiftLeft_add_eq_or_of_lt (by decide)]
    simp [Nat.shiftLeft_eq]
    omega
  have hw : w = (w.extractLsb' 24 8 ++ w.extractLsb' 16 8 ++ w.extractLsb' 0 16 : BitVec 32) := by
    apply BitVec.eq_of_toNat_eq
    rw [BitVec.toNat_append, BitVec.toNat_append, ← Nat.shiftLeft_add_eq_or_of_lt (BitVec.isLt _),
      ← Nat.shiftLeft_add_eq_or_of_lt (BitVec.isLt _)]
    have := w.isLt
    simp [Nat.shiftLeft_eq, Nat.shiftRight_eq_div_pow]
    omega
  refine (congrArg (fun x : Word => (x &&& 0xFF00FFFF#32).toNat) hw).trans ((key _ _ _).trans ?_)
  have := w.isLt
  simp [Nat.shiftRight_eq_div_pow]
  omega

/-- The mask of the row of RANDOM_BITS keeps all but NBITS. -/
theorem toNat_and_nbits_mask (w : Word) :
    (w &&& 0xFFFF80FF#32).toNat = w.toNat / 2 ^ 15 * 2 ^ 15 + w.toNat % 2 ^ 8 := by
  have key : ∀ (a : BitVec 17) (b : BitVec 7) (c : BitVec 8),
      ((a ++ b ++ c : BitVec (17 + 7 + 8)) &&& (0x1FFFF#17 ++ 0#7 ++ 0xFF#8)).toNat = a.toNat * 2 ^ 15 + c.toNat := by
    intro a b c
    have h17 : ∀ i (h : i < 17), (0x1FFFF#17)[i] = true := by decide
    have h8 : ∀ i (h : i < 8), (0xFF#8)[i] = true := by decide
    have : (a ++ b ++ c : BitVec (17 + 7 + 8)) &&& (0x1FFFF#17 ++ 0#7 ++ 0xFF#8) = a ++ 0#7 ++ c := by
      ext i hi
      simp only [BitVec.getElem_and, BitVec.getElem_append]
      split
      · simp [h8]
      · split
        · simp
        · simp [h17]
    rw [this, BitVec.toNat_append, BitVec.toNat_append, ← Nat.shiftLeft_add_eq_or_of_lt c.isLt,
      ← Nat.shiftLeft_add_eq_or_of_lt (by decide)]
    simp [Nat.shiftLeft_eq]
    omega
  have hw : w = (w.extractLsb' 15 17 ++ w.extractLsb' 8 7 ++ w.extractLsb' 0 8 : BitVec 32) := by
    apply BitVec.eq_of_toNat_eq
    rw [BitVec.toNat_append, BitVec.toNat_append, ← Nat.shiftLeft_add_eq_or_of_lt (BitVec.isLt _),
      ← Nat.shiftLeft_add_eq_or_of_lt (BitVec.isLt _)]
    have := w.isLt
    simp [Nat.shiftLeft_eq, Nat.shiftRight_eq_div_pow]
    omega
  refine (congrArg (fun x : Word => (x &&& 0xFFFF80FF#32).toNat) hw).trans ((key _ _ _).trans ?_)
  have := w.isLt
  simp [Nat.shiftRight_eq_div_pow]
  omega

theorem decodePlain_ok (w : Word) (i j : Instr) (h : decodePlain w i = .ok j) :
    j = i ∧ Cmd.nbits w = 0 ∧ Cmd.slen w = 0 := by
  unfold decodePlain at h
  split_ifs at h with hn hl
  cases h
  exact ⟨rfl, not_not.1 hn, not_not.1 hl⟩

theorem decodeWithSlen_ok (w : Word) (mk : Nat → Instr) (j : Instr) (h : decodeWithSlen w mk = .ok j) :
    j = mk (Cmd.slen w) ∧ Cmd.nbits w = 0 := by
  unfold decodeWithSlen at h
  split_ifs at h with hn
  cases h
  exact ⟨rfl, not_not.1 hn⟩

theorem decodeWithNbits_ok (w : Word) (mk : Nat → Instr) (j : Instr) (h : decodeWithNbits w mk = .ok j) :
    j = mk (Cmd.nbits w) ∧ Cmd.slen w = 0 := by
  unfold decodeWithNbits at h
  split_ifs at h with hl
  cases h
  exact ⟨rfl, not_not.1 hl⟩

end Sys2Proof
end

