-- ==== Sys2Proof/Laws/PerInstr.lean ====
section
/-! SUPPORT. Per-instruction law Encoding: the word `encode` makes of a command lies in the command's own row of the opcode
table and in no other (30_encoding.md R73, R87). -/

namespace Sys2Proof.Laws.Encoding

open Sys2Proof

/-- The place of a command's row in the opcode table. -/
def rowIndex : Instr → Nat
  | .encode => 0
  | .decode _ => 1
  | .isValidPartial _ => 2
  | .isValid _ => 3
  | .decodePartial _ => 4
  | .pack => 5
  | .xid => 6
  | .xidString => 7
  | .timepoint => 8
  | .timestamp => 9
  | .randomBits _ => 10
  | .random => 11
  | .randomString => 12

/-- The encoded word of a command matches a row of the opcode table exactly where the row is the command's own. -/
def Statement (i : Instr) : Prop :=
  ∀ j row, opcodeTable[j]? = some row → (rowMatches (Sys2Proof.encode i) row = true ↔ j = rowIndex i)

theorem rowMatches_full (name : String) (o n l : Nat) (m : Word) :
    rowMatches (Cmd.ofFields o n l) (name, 0xFFFFFFFF#32, m) = true
      ↔ l % 256 * 2 ^ 16 + n % 128 * 2 ^ 8 + o % 16 = m.toNat := by
  have h : Cmd.ofFields o n l &&& 0xFFFFFFFF#32 = Cmd.ofFields o n l := BitVec.and_allOnes
  simp only [rowMatches, h, beq_iff_eq, ← BitVec.toNat_inj, Cmd.toNat_ofFields]

theorem rowMatches_slen (name : String) (o n l : Nat) (m : Word) :
    rowMatches (Cmd.ofFields o n l) (name, 0xFF00FFFF#32, m) = true ↔ n % 128 * 2 ^ 8 + o % 16 = m.toNat := by
  simp only [rowMatches, beq_iff_eq, ← BitVec.toNat_inj, toNat_and_slen_mask, Cmd.toNat_ofFields]
  omega

theorem rowMatches_nbits (name : String) (o n l : Nat) (m : Word) :
    rowMatches (Cmd.ofFields o n l) (name, 0xFFFF80FF#32, m) = true ↔ l % 256 * 2 ^ 16 + o % 16 = m.toNat := by
  simp only [rowMatches, beq_iff_eq, ← BitVec.toNat_inj, toNat_and_nbits_mask, Cmd.toNat_ofFields]
  omega

/-- A command whose fields are those its opcode allows meets the law. -/
theorem statement_of_fields (i : Instr)
    (h : rowIndex i + 1 = opcodeOf i)
    (hn : opcodeOf i ≠ 11 → nbitsOf i = 0)
    (hl : ¬ (2 ≤ opcodeOf i ∧ opcodeOf i ≤ 5) → slenOf i = 0)
    (ho : 1 ≤ opcodeOf i ∧ opcodeOf i ≤ 13) : Statement i := by
  intro j row hrow
  have hj : j < 13 := (List.getElem?_eq_some_iff.mp hrow).1
  unfold Sys2Proof.encode
  interval_cases j <;>
    simp only [opcodeTable, List.cons_append, List.nil_append, List.getElem?_cons_zero, List.getElem?_cons_succ,
      Option.some.injEq] at hrow <;>
    subst hrow <;>
    simp only [rowMatches_full, rowMatches_slen, rowMatches_nbits, BitVec.toNat_ofNat] <;>
    omega

theorem encode : Statement .encode := statement_of_fields _ rfl (by decide) (by decide) (by decide)
theorem decode (slen : Nat) : Statement (.decode slen) :=
  statement_of_fields _ rfl (by simp [opcodeOf, nbitsOf]) (by simp [opcodeOf, slenOf]) (by simp [opcodeOf])
theorem isValidPartial (slen : Nat) : Statement (.isValidPartial slen) :=
  statement_of_fields _ rfl (by simp [opcodeOf, nbitsOf]) (by simp [opcodeOf, slenOf]) (by simp [opcodeOf])
theorem isValid (slen : Nat) : Statement (.isValid slen) :=
  statement_of_fields _ rfl (by simp [opcodeOf, nbitsOf]) (by simp [opcodeOf, slenOf]) (by simp [opcodeOf])
theorem decodePartial (slen : Nat) : Statement (.decodePartial slen) :=
  statement_of_fields _ rfl (by simp [opcodeOf, nbitsOf]) (by simp [opcodeOf, slenOf]) (by simp [opcodeOf])
theorem pack : Statement .pack := statement_of_fields _ rfl (by decide) (by decide) (by decide)
theorem xid : Statement .xid := statement_of_fields _ rfl (by decide) (by decide) (by decide)
theorem xidString : Statement .xidString := statement_of_fields _ rfl (by decide) (by decide) (by decide)
theorem timepoint : Statement .timepoint := statement_of_fields _ rfl (by decide) (by decide) (by decide)
theorem timestamp : Statement .timestamp := statement_of_fields _ rfl (by decide) (by decide) (by decide)
theorem randomBits (nbits : Nat) : Statement (.randomBits nbits) :=
  statement_of_fields _ rfl (by simp [opcodeOf, nbitsOf]) (by simp [opcodeOf, slenOf]) (by simp [opcodeOf])
theorem random : Statement .random := statement_of_fields _ rfl (by decide) (by decide) (by decide)
theorem randomString : Statement .randomString := statement_of_fields _ rfl (by decide) (by decide) (by decide)

end Sys2Proof.Laws.Encoding
end

