-- ==== Sys2Proof/Laws/State.lean ====
section
/-! SUPPORT. One lemma for each field of State under each named operation of Machine/Ops.lean, so that no proof unfolds a
record update. -/

namespace Sys2Proof.Machine

@[simp] theorem accept_phase (c : CmdRec) (clock : U64) (s : State) : (accept c clock s).phase = s.phase := rfl
@[simp] theorem accept_pending (c : CmdRec) (clock : U64) (s : State) : (accept c clock s).pending = s.pending := rfl
@[simp] theorem accept_latched (c : CmdRec) (clock : U64) (s : State) : (accept c clock s).latched = some c := rfl
@[simp] theorem accept_resp (c : CmdRec) (clock : U64) (s : State) : (accept c clock s).resp = Resp.zero := rfl
@[simp] theorem accept_inputs (c : CmdRec) (clock : U64) (s : State) : (accept c clock s).inputs = s.inputs := rfl
@[simp] theorem accept_clock (c : CmdRec) (clock : U64) (s : State) : (accept c clock s).clock = clock := rfl
@[simp] theorem accept_nextRequest (c : CmdRec) (clock : U64) (s : State) : (accept c clock s).nextRequest = s.nextRequest := rfl
@[simp] theorem accept_withdrawn (c : CmdRec) (clock : U64) (s : State) : (accept c clock s).withdrawn = s.withdrawn := rfl
@[simp] theorem accept_reads (c : CmdRec) (clock : U64) (s : State) : (accept c clock s).reads = s.reads := rfl

@[simp] theorem respond_phase (r : Resp) (s : State) : (respond r s).phase = s.phase := rfl
@[simp] theorem respond_pending (r : Resp) (s : State) : (respond r s).pending = s.pending := rfl
@[simp] theorem respond_latched (r : Resp) (s : State) : (respond r s).latched = s.latched := rfl
@[simp] theorem respond_resp (r : Resp) (s : State) : (respond r s).resp = r := rfl
@[simp] theorem respond_inputs (r : Resp) (s : State) : (respond r s).inputs = s.inputs := rfl
@[simp] theorem respond_clock (r : Resp) (s : State) : (respond r s).clock = s.clock := rfl
@[simp] theorem respond_nextRequest (r : Resp) (s : State) : (respond r s).nextRequest = s.nextRequest := rfl
@[simp] theorem respond_withdrawn (r : Resp) (s : State) : (respond r s).withdrawn = s.withdrawn := rfl
@[simp] theorem respond_reads (r : Resp) (s : State) : (respond r s).reads = s.reads := rfl

@[simp] theorem start_phase (k : Nat) (clk : Option U64) (s : State) : (start k clk s).phase = .waitEntropy := rfl
@[simp] theorem start_pending (k : Nat) (clk : Option U64) (s : State) : (start k clk s).pending = some { cmd := command s, k := k, clk := clk, req := s.nextRequest } := rfl
@[simp] theorem start_latched (k : Nat) (clk : Option U64) (s : State) : (start k clk s).latched = s.latched := rfl
@[simp] theorem start_resp (k : Nat) (clk : Option U64) (s : State) : (start k clk s).resp = s.resp := rfl
@[simp] theorem start_inputs (k : Nat) (clk : Option U64) (s : State) : (start k clk s).inputs = s.inputs := rfl
@[simp] theorem start_clock (k : Nat) (clk : Option U64) (s : State) : (start k clk s).clock = s.clock := rfl
@[simp] theorem start_nextRequest (k : Nat) (clk : Option U64) (s : State) : (start k clk s).nextRequest = s.nextRequest + 1 := rfl
@[simp] theorem start_withdrawn (k : Nat) (clk : Option U64) (s : State) : (start k clk s).withdrawn = s.withdrawn := rfl
@[simp] theorem start_reads (k : Nat) (clk : Option U64) (s : State) : (start k clk s).reads = s.reads := rfl

@[simp] theorem complete_phase (r : Resp) (s : State) : (complete r s).phase = .idle := rfl
@[simp] theorem complete_pending (r : Resp) (s : State) : (complete r s).pending = none := rfl
@[simp] theorem complete_latched (r : Resp) (s : State) : (complete r s).latched = s.latched := rfl
@[simp] theorem complete_resp (r : Resp) (s : State) : (complete r s).resp = r := rfl
@[simp] theorem complete_inputs (r : Resp) (s : State) : (complete r s).inputs = s.inputs := rfl
@[simp] theorem complete_clock (r : Resp) (s : State) : (complete r s).clock = s.clock := rfl
@[simp] theorem complete_nextRequest (r : Resp) (s : State) : (complete r s).nextRequest = s.nextRequest := rfl
@[simp] theorem complete_withdrawn (r : Resp) (s : State) : (complete r s).withdrawn = s.withdrawn := rfl
@[simp] theorem complete_reads (r : Resp) (s : State) : (complete r s).reads = s.reads := rfl

@[simp] theorem resetBlock_phase (s : State) : (resetBlock s).phase = .idle := rfl
@[simp] theorem resetBlock_pending (s : State) : (resetBlock s).pending = none := rfl
@[simp] theorem resetBlock_latched (s : State) : (resetBlock s).latched = none := rfl
@[simp] theorem resetBlock_resp (s : State) : (resetBlock s).resp = Resp.zero := rfl
@[simp] theorem resetBlock_inputs (s : State) : (resetBlock s).inputs = s.inputs := rfl
@[simp] theorem resetBlock_clock (s : State) : (resetBlock s).clock = s.clock := rfl
@[simp] theorem resetBlock_nextRequest (s : State) : (resetBlock s).nextRequest = s.nextRequest := rfl
@[simp] theorem resetBlock_reads (s : State) : (resetBlock s).reads = s.reads := rfl

@[simp] theorem readResp_phase (s : State) : (readResp s).phase = s.phase := rfl
@[simp] theorem readResp_pending (s : State) : (readResp s).pending = s.pending := rfl
@[simp] theorem readResp_latched (s : State) : (readResp s).latched = s.latched := rfl
@[simp] theorem readResp_resp (s : State) : (readResp s).resp = s.resp := rfl
@[simp] theorem readResp_inputs (s : State) : (readResp s).inputs = s.inputs := rfl
@[simp] theorem readResp_clock (s : State) : (readResp s).clock = s.clock := rfl
@[simp] theorem readResp_nextRequest (s : State) : (readResp s).nextRequest = s.nextRequest := rfl
@[simp] theorem readResp_withdrawn (s : State) : (readResp s).withdrawn = s.withdrawn := rfl
@[simp] theorem readResp_reads (s : State) : (readResp s).reads = s.resp :: s.reads := rfl

theorem resetBlock_withdrawn_of_some (s : State) (p : Pending) (h : s.pending = some p) :
    (resetBlock s).withdrawn = p.req :: s.withdrawn := by
  simp [resetBlock, h]

theorem resetBlock_withdrawn_of_none (s : State) (h : s.pending = none) :
    (resetBlock s).withdrawn = s.withdrawn := by
  simp [resetBlock, h]

@[simp] theorem command_of_latched (s : State) (c : CmdRec) (h : s.latched = some c) : command s = c := by
  simp [command, h]

@[simp] theorem command_accept (c : CmdRec) (clock : U64) (s : State) : command (accept c clock s) = c := rfl

@[simp] theorem operandA_of_latched (s : State) (c : CmdRec) (h : s.latched = some c) : operandA s = c.a := by
  simp [operandA, h]

@[simp] theorem operandB_of_latched (s : State) (c : CmdRec) (h : s.latched = some c) : operandB s = c.b := by
  simp [operandB, h]

@[simp] theorem operandStr_of_latched (s : State) (c : CmdRec) (n : Nat) (h : s.latched = some c) :
    operandStr n s = c.s.toList.take n := by
  simp [operandStr, h]

end Sys2Proof.Machine
end

