-- ==== Sys2Proof/Laws/Step.lean ====
section
/-! SUPPORT. What a command, an agent's step and a step of the machine can do, each said once: later proofs cite these
instead of unfolding exec and step. -/

namespace Sys2Proof.Machine

theorem respOk_okNumber (r : U64) : RespOk (okNumber r) :=
  respOk_of_respIs _ _ _ _ _ (okNumber_is r) (by decide) (by simp) (by simp) (by simp)

theorem respOk_decodedResp (o : Option Nat) : RespOk (decodedResp o) := by
  cases o with
  | none => exact respOk_of_respIs _ _ _ _ _ okInvalid_is (by decide) (by simp) (by simp) (by simp)
  | some v => exact respOk_of_respIs _ _ _ _ _ (okDecoded_is _) (by decide) (by simp) (by simp) (by simp)

theorem respOk_okBool (v : Bool) : RespOk (okBool v) :=
  respOk_of_respIs _ _ _ _ _ (okBool_is v) (by decide) (by simp) (by simp) (by simp)

theorem respOk_okString (out : List Byte) (h : out.length = 11 ∨ out.length = 24) : RespOk (okString out) :=
  respOk_of_respIs _ _ _ _ _ (okString_is out (by omega)) (by decide) (by omega) (by simp) (by simp)

theorem respOk_errorResp (status : BitVec 4) (h : status.toNat ≤ 4) : RespOk (errorResp status) :=
  respOk_of_respIs _ _ _ _ _ (errorResp_is status) h (by simp) (by simp) (by simp)

theorem respOk_packResp (o : Option U64) : RespOk (packResp o) := by
  cases o with
  | none => exact respOk_errorResp _ (by decide)
  | some p => exact respOk_okNumber p

theorem respOk_packStringResp (o : Option U64) : RespOk (packStringResp o) := by
  cases o with
  | none => exact respOk_errorResp _ (by decide)
  | some p => exact respOk_okString _ (by simp)

theorem decodedResp_valid (o : Option Nat) : (decodedResp o).valid = true := by
  cases o <;> rfl

theorem packResp_valid (o : Option U64) : (packResp o).valid = true := by
  cases o <;> rfl

/-- The ISSUE half of a command either responds, and then it makes no request, or starts the request it makes. -/
theorem exec_cases (i : Instr) (s : State) :
    (∃ x, exec i s = .next (respond x s) ∧ x.valid = true ∧ RespOk x ∧ requestOf i = none)
      ∨ ∃ k clk, exec i s = .next (start k clk s) ∧ requestOf i = some k
          ∧ clk = (if classOf i = .entropyClock then some s.clock else none) := by
  cases i with
  | encode => exact .inl ⟨_, rfl, rfl, respOk_okString _ (by simp), rfl⟩
  | decode slen => exact .inl ⟨_, rfl, decodedResp_valid _, respOk_decodedResp _, rfl⟩
  | isValidPartial slen => exact .inl ⟨_, rfl, rfl, respOk_okBool _, rfl⟩
  | isValid slen => exact .inl ⟨_, rfl, rfl, respOk_okBool _, rfl⟩
  | decodePartial slen => exact .inl ⟨_, rfl, decodedResp_valid _, respOk_decodedResp _, rfl⟩
  | pack => exact .inl ⟨_, rfl, packResp_valid _, respOk_packResp _, rfl⟩
  | xid => exact .inr ⟨3, some s.clock, rfl, rfl, rfl⟩
  | xidString => exact .inr ⟨3, some s.clock, rfl, rfl, rfl⟩
  | timepoint => exact .inl ⟨_, rfl, rfl, respOk_okNumber _, rfl⟩
  | timestamp => exact .inl ⟨_, rfl, rfl, respOk_okString _ (by simp), rfl⟩
  | randomBits nbits =>
    by_cases h : 64 < nbits
    · exact .inl ⟨errorResp Status.rangeError, by simp [exec, execRandomBits, h, raise], rfl,
        respOk_errorResp _ (by decide), by simp [requestOf, h]⟩
    · exact .inr ⟨entropyBytes nbits, none, by simp [exec, execRandomBits, h], by simp [requestOf, h, entropyBytes], rfl⟩
  | random => exact .inr ⟨8, none, rfl, rfl, rfl⟩
  | randomString => exact .inr ⟨8, none, rfl, rfl, rfl⟩

/-- The ANSWER half of a command answers exactly where the command makes a request and the clock sample fits it. -/
theorem finishInstr_cases (i : Instr) (clk : Option U64) (e : List Byte) (k : Nat) (hk : requestOf i = some k)
    (hc : clk.isSome = true ↔ classOf i = .entropyClock) :
    ∃ x, finishInstr i clk e = some x ∧ x.valid = true ∧ RespOk x := by
  cases i <;> cases clk <;> simp [requestOf, classOf, finishInstr] at hk hc ⊢
  all_goals first
    | exact ⟨packResp_valid _, respOk_packResp _⟩
    | exact ⟨rfl, respOk_okNumber _⟩
    | exact ⟨rfl, respOk_okString _ (by simp)⟩
    | exact ⟨by unfold finishXidString packStringResp; split <;> rfl, respOk_packStringResp _⟩

theorem finish_of_pendingOk (p : Pending) (h : PendingOk p) (e : List Byte) :
    ∃ x, finish p e = some x ∧ x.valid = true ∧ RespOk x := by
  obtain ⟨i, hi, hk, hc⟩ := h
  simpa [finish, hi] using finishInstr_cases i p.clk e p.k hk hc

/-- ISSUE in PHASE = IDLE: an illegal word responds ILLEGAL_COMMAND, a legal one runs. -/
theorem issue_of_idle (c : CmdRec) (clock : U64) (s : State) (h : s.phase = .idle) :
    issue c clock s = match decode c.cmd with
      | .error _ => .next (respond (errorResp Status.illegalCommand) (accept c clock s))
      | .ok i => exec i (accept c clock s) := by
  simp only [issue, h]
  rfl

/-- ISSUE answers a next state in PHASE = IDLE alone, and in three ways: the word is illegal, the command responds, or
it starts its request. -/
theorem issue_next_cases (c : CmdRec) (clock : U64) (s t : State) (h : issue c clock s = .next t) :
    s.phase = .idle ∧
      ((∃ e, decode c.cmd = .error e ∧ t = respond (errorResp Status.illegalCommand) (accept c clock s))
        ∨ ∃ i, decode c.cmd = .ok i ∧ exec i (accept c clock s) = .next t ∧
          ((∃ x, t = respond x (accept c clock s) ∧ x.valid = true ∧ RespOk x ∧ requestOf i = none)
            ∨ ∃ k clk, t = start k clk (accept c clock s) ∧ requestOf i = some k
                ∧ clk = (if classOf i = .entropyClock then some clock else none))) := by
  cases hp : s.phase with
  | waitEntropy => simp [issue, hp] at h
  | idle =>
    refine ⟨rfl, ?_⟩
    rw [issue_of_idle c clock s hp] at h
    cases hd : decode c.cmd with
    | error e =>
      rw [hd] at h
      cases h
      exact .inl ⟨e, rfl, rfl⟩
    | ok i =>
      rw [hd] at h
      refine .inr ⟨i, rfl, h, ?_⟩
      rcases exec_cases i (accept c clock s) with ⟨x, hx, hv, hok, hr⟩ | ⟨k, clk, hx, hk, hc⟩
      · exact .inl ⟨x, Host.Outcome.next.inj (h.symm.trans hx), hv, hok, hr⟩
      · exact .inr ⟨k, clk, Host.Outcome.next.inj (h.symm.trans hx), hk, hc⟩

/-- ANSWER answers a next state in two ways alone: a withdrawn request's answer is dropped, or the pending command
completes. -/
theorem answer_next_cases (req : Nat) (ans : Answer) (s t : State) (h : answer req ans s = .next t) :
    (req ∈ s.withdrawn ∧ t = { s with withdrawn := s.withdrawn.erase req })
      ∨ ∃ p x, req ∉ s.withdrawn ∧ s.phase = .waitEntropy ∧ s.pending = some p ∧ p.req = req ∧ t = complete x s
          ∧ ((ans = .unavailable ∧ x = errorResp Status.entropyUnavailable)
              ∨ ∃ e, ans = .bytes e ∧ e.length = p.k ∧ finish p e = some x) := by
  unfold answer at h
  by_cases hw : req ∈ s.withdrawn
  · rw [if_pos hw] at h
    cases h
    exact .inl ⟨hw, rfl⟩
  · rw [if_neg hw] at h
    cases hp : s.phase <;> cases hq : s.pending <;> simp only [hp, hq] at h <;> try contradiction
    rename_i p
    by_cases hr : p.req = req
    · rw [if_pos hr] at h
      cases ans with
      | unavailable =>
        cases h
        exact .inr ⟨p, _, hw, rfl, rfl, hr, rfl, .inl ⟨rfl, rfl⟩⟩
      | bytes e =>
        simp only [answerPending] at h
        by_cases hl : e.length = p.k
        · rw [if_neg (not_not.2 hl)] at h
          cases hf : finish p e with
          | none => simp [hf] at h
          | some x =>
            simp only [hf] at h
            cases h
            exact .inr ⟨p, x, hw, rfl, rfl, hr, rfl, .inr ⟨e, rfl, hl, hf⟩⟩
        · simp [hl] at h
    · simp [hr] at h

/-- UNAVAILABLE ends the pending command. -/
theorem answer_unavailable (s : State) (p : Pending) (hs : s.phase = .waitEntropy) (hp : s.pending = some p)
    (hw : p.req ∉ s.withdrawn) :
    answer p.req .unavailable s = .next (complete (errorResp Status.entropyUnavailable) s) := by
  simp [answer, hw, hs, hp, answerPending]

/-- The k bytes asked for complete the pending command with the response of its ANSWER half. -/
theorem answer_bytes (s : State) (p : Pending) (e : List Byte) (x : Resp) (hs : s.phase = .waitEntropy)
    (hp : s.pending = some p) (hw : p.req ∉ s.withdrawn) (hl : e.length = p.k) (hf : finish p e = some x) :
    answer p.req (.bytes e) s = .next (complete x s) := by
  simp [answer, hw, hs, hp, answerPending, hl, hf]

/-- A step with an agent's step to come is that agent's step. -/
theorem step_of_inputs (s : State) (e : AgentStep) (rest : List AgentStep) (h : s.inputs = e :: rest) :
    step s = agentStep e { s with inputs := rest } := by
  simp [step, h]

theorem step_of_no_inputs (s : State) (h : s.inputs = []) : step s = .next s := by
  simp [step, h]

/-- An answer as the next agent's step. -/
theorem step_withAnswer (req : Nat) (ans : Answer) (rest : List AgentStep) (s : State) :
    step (withAnswer req ans rest s) = answer req ans { s with inputs := rest } := rfl

theorem runs_zero (s t : State) : Runs 0 s t ↔ s = t :=
  ⟨fun h => Host.Outcome.next.inj h, fun h => congrArg Host.Outcome.next h⟩

/-- A run of the host's core, one step unfolded. -/
theorem coreRun_succ (M : Host.Core) (n : Nat) (s : M.State) :
    Host.Core.run M (n + 1) s = match M.step s with
      | .next u => Host.Core.run M n u
      | .fault r => .fault r
      | .refused r => .refused r := by
  cases h : M.step s <;> simp only [Host.Core.run, h]

/-- A run of one step more is a step and a run. -/
theorem runs_succ (n : Nat) (s t : State) : Runs (n + 1) s t ↔ ∃ u, step s = .next u ∧ Runs n u t := by
  constructor
  · intro h
    have h' := (coreRun_succ Sys2Proof.core n s).symm.trans h
    split at h'
    case h_1 u hu => exact ⟨u, hu, h'⟩
    case h_2 => cases h'
    case h_3 => cases h'
  · rintro ⟨u, hu, h⟩
    refine (coreRun_succ Sys2Proof.core n s).trans ?_
    have hu' : Sys2Proof.core.step s = .next u := hu
    rw [hu']
    exact h

/-- A request that was issued and waits for no answer is never pending again, and never withdrawn later. -/
theorem closed_of_step (s t : State) (r : Nat) (hr : r < s.nextRequest) (hp : ∀ p, s.pending = some p → p.req ≠ r)
    (h : step s = .next t) :
    r < t.nextRequest ∧ (∀ p, t.pending = some p → p.req ≠ r) ∧ (r ∉ s.withdrawn → r ∉ t.withdrawn) := by
  cases hin : s.inputs with
  | nil =>
    rw [step_of_no_inputs s hin] at h
    cases h
    exact ⟨hr, hp, id⟩
  | cons e rest =>
    rw [step_of_inputs s e rest hin] at h
    cases e with
    | read =>
      cases h
      exact ⟨hr, hp, id⟩
    | reset =>
      cases h
      refine ⟨hr, by simp, fun hw => ?_⟩
      cases hs : s.pending with
      | none => simpa [resetBlock, hs] using hw
      | some p => simpa [resetBlock, hs] using ⟨(hp p hs).symm, hw⟩
    | answer req ans =>
      rcases answer_next_cases req ans _ t h with ⟨-, rfl⟩ | ⟨p, x, -, -, -, -, rfl, -⟩
      · exact ⟨hr, hp, fun hw hm => hw (List.mem_of_mem_erase hm)⟩
      · exact ⟨hr, by simp, id⟩
    | issue c clock =>
      obtain ⟨-, ⟨e, -, rfl⟩ | ⟨i, -, -, ⟨x, rfl, -⟩ | ⟨k, clk, rfl, -⟩⟩⟩ := issue_next_cases c clock _ t h
      · exact ⟨hr, hp, id⟩
      · exact ⟨hr, hp, id⟩
      · refine ⟨Nat.lt_succ_of_lt hr, fun p hs => ?_, id⟩
        simp only [start_pending, Option.some.injEq] at hs
        subst hs
        exact Nat.ne_of_gt hr

/-- The same over a run. -/
theorem closed_of_runs (n : Nat) (s t : State) (r : Nat) (hr : r < s.nextRequest)
    (hp : ∀ p, s.pending = some p → p.req ≠ r) (h : Runs n s t) :
    r < t.nextRequest ∧ (∀ p, t.pending = some p → p.req ≠ r) ∧ (r ∉ s.withdrawn → r ∉ t.withdrawn) := by
  induction n generalizing s with
  | zero =>
    cases (runs_zero s t).1 h
    exact ⟨hr, hp, id⟩
  | succ n ih =>
    obtain ⟨u, hu, h⟩ := (runs_succ n s t).1 h
    obtain ⟨hr', hp', hw⟩ := closed_of_step s u r hr hp hu
    obtain ⟨hr'', hp'', hw'⟩ := ih u hr' hp' h
    exact ⟨hr'', hp'', fun h => hw' (hw h)⟩

/-- An answer to a request that is neither withdrawn nor pending is refused. -/
theorem answer_of_closed (req : Nat) (ans : Answer) (s : State) (hw : req ∉ s.withdrawn)
    (hp : ∀ p, s.pending = some p → p.req ≠ req) : answer req ans s = .refused .answerToNoOpenRequest := by
  cases hs : s.phase <;> cases hq : s.pending with
  | none => simp [answer, hw, hs, hq]
  | some p => simp [answer, hw, hs, hq, hp p hq]

end Sys2Proof.Machine
end

