-- ==== Sys2Proof/Tests/Slice0.lean ====
section
/-! SUPPORT. The model's own tests. Every expected value comes from spec/95_test_vectors.md or from the corner cases of the
rule a test names, and the words are written out from the fields of 30_encoding.md R70. The last part gives, for each
statement with hypotheses, a state and operands that meet them. -/

namespace Sys2Proof.Tests

open Sys2Proof Sys2Proof.Machine

/-! Helpers. -/

/-- The reset state with one command latched. -/
def latchedState (c : CmdRec) : State := { State.reset with latched := some c }

/-- The reset state with the agents' steps to come. -/
def idleState (es : List AgentStep) : State := { State.reset with inputs := es }

/-- The state that waits for the k bytes of the first request, made by the bare command word `w`. -/
def waitState (w : Word) (k : Nat) (clk : Option U64) (es : List AgentStep) : State :=
  { waiting (bareCommand w) k clk (latchedState (bareCommand w)) with inputs := es }

/-- The state after RESET withdrew that request. -/
def withdrawnState (es : List AgentStep) : State := { State.reset with nextRequest := 1, withdrawn := [0], inputs := es }

/-- The state a step answers, none where it stops. -/
def after : Out → Option State
  | .next t => some t
  | .fault _ => none
  | .refused _ => none

/-- The response after ISSUE of a command on the reset state. -/
def issued (c : CmdRec) : Option Resp := (after (step (idleState [.issue c 0]))).map State.resp

/-- The response after ISSUE of a bare word at a clock value and the answer to its request. -/
def answered (w : Word) (clock : U64) (ans : Answer) : Option Resp :=
  (after (step (idleState [.issue (bareCommand w) clock, .answer 0 ans]))).bind fun t => (after (step t)).map State.resp

/-- A command with a data operand A. -/
def withA (w : Word) (a : U64) : CmdRec := { bareCommand w with a := a }

/-- A response: STATUS, R, V and the string. -/
def view (x : Resp) : BitVec 4 × U64 × Bool × List Byte := (x.status, x.r, x.v, outStr x)

/-! WellFormed refuses what no command word carries. -/

theorem test_wellFormed_refuses_decode_256 : ¬ (Instr.decode 256).WellFormed := by decide
theorem test_wellFormed_refuses_isValidPartial_256 : ¬ (Instr.isValidPartial 256).WellFormed := by decide
theorem test_wellFormed_refuses_isValid_256 : ¬ (Instr.isValid 256).WellFormed := by decide
theorem test_wellFormed_refuses_decodePartial_256 : ¬ (Instr.decodePartial 256).WellFormed := by decide
theorem test_wellFormed_refuses_randomBits_128 : ¬ (Instr.randomBits 128).WellFormed := by decide

/-! Decoding, each word written out as RSV2, SLEN, RSV1 and NBITS, RSV0 and OP (30_encoding.md R70, R71). -/

theorem test_decode_encode : decode 0b00000000_00000000_00000000_00000001#32 = .ok .encode := by decide
theorem test_decode_decode : decode 0b00000000_00001011_00000000_00000010#32 = .ok (.decode 11) := by decide
theorem test_decode_isValidPartial : decode 0b00000000_00000010_00000000_00000011#32 = .ok (.isValidPartial 2) := by decide
theorem test_decode_isValid : decode 0b00000000_11111111_00000000_00000100#32 = .ok (.isValid 255) := by decide
theorem test_decode_decodePartial : decode 0b00000000_10000000_00000000_00000101#32 = .ok (.decodePartial 128) := by decide
theorem test_decode_pack : decode 0b00000000_00000000_00000000_00000110#32 = .ok .pack := by decide
theorem test_decode_xid : decode 0b00000000_00000000_00000000_00000111#32 = .ok .xid := by decide
theorem test_decode_xidString : decode 0b00000000_00000000_00000000_00001000#32 = .ok .xidString := by decide
theorem test_decode_timepoint : decode 0b00000000_00000000_00000000_00001001#32 = .ok .timepoint := by decide
theorem test_decode_timestamp : decode 0b00000000_00000000_00000000_00001010#32 = .ok .timestamp := by decide
theorem test_decode_randomBits : decode 0b00000000_00000000_01000001_00001011#32 = .ok (.randomBits 65) := by decide
theorem test_decode_random : decode 0b00000000_00000000_00000000_00001100#32 = .ok .random := by decide
theorem test_decode_randomString : decode 0b00000000_00000000_00000000_00001101#32 = .ok .randomString := by decide

/-- The illegal words of vector table V-C. -/
theorem test_decode_reservedOpcodes :
    decode 0x00000000 = .error .reservedOpcode ∧ decode 0x0000000E = .error .reservedOpcode
      ∧ decode 0x0000000F = .error .reservedOpcode := by decide
theorem test_decode_reservedBits :
    decode 0x00000011 = .error .rsv0NotZero ∧ decode 0x00008001 = .error .rsv1NotZero
      ∧ decode 0x01000001 = .error .rsv2NotZero := by decide
theorem test_decode_unusedFields :
    decode 0x00010001 = .error .slenNotZero ∧ decode 0x00000101 = .error .nbitsNotZero
      ∧ decode 0x0000010C = .error .nbitsNotZero ∧ decode 0x000B000B = .error .slenNotZero := by decide

/-- The words are those the encoder makes (30_encoding.md R87). -/
theorem test_encode_words :
    encode (.decode 11) = 0x000B0002 ∧ encode (.randomBits 20) = 0x0000140B ∧ encode .randomString = 0x0000000D := by decide

theorem test_decodeTableWord :
    decodeTableWord 32 0x00FF0004 = some (.isValid 255) ∧ decodeTableWord 8 0x106 = some .pack
      ∧ decodeTableWord 32 0x10000006 = none := by decide

/-! withFetchWord runs the word as the very next step. -/

theorem test_withFetchWord_encode :
    (after (step (State.reset.withFetchWord 32 0x00000001))).map (fun t => view t.resp)
      = some (0, 0, false, ascii "11111111111") := by decide
theorem test_withFetchWord_random :
    (after (step (State.reset.withFetchWord 32 0x0000000C))).map (fun t => (t.phase, t.pending.map Pending.k, t.resp))
      = some (.waitEntropy, some 8, Resp.zero) := by decide

/-! ENCODE, vector table V-E. -/

theorem test_encode_max :
    (issued (withA 0x00000001 0xFFFFFFFFFFFFFFFF)).map view = some (0, 0, false, ascii "jpXCZedGfVQ") := by decide
theorem test_encode_ignores_b :
    (issued { withA 0x00000001 5 with b := 0xDEAD }).map view = some (0, 0, false, ascii "11111111116") := by decide

/-! DECODE, IS_VALID, IS_VALID_PARTIAL, DECODE_PARTIAL, vector table V-D. -/

theorem test_decode_max :
    (issued (stringRec 0x000B0002 (ascii "jpXCZedGfVQ"))).map view = some (0, 0xFFFFFFFFFFFFFFFF, true, []) := by decide
theorem test_decode_above_max :
    (issued (stringRec 0x000B0002 (ascii "jpXCZedGfVR"))).map view = some (0, 0, false, []) := by decide
theorem test_isValidPartial_empty : (issued (bareCommand 0x00000003)).map view = some (0, 0, true, []) := by decide
theorem test_isValidPartial_letter_O :
    (issued (stringRec 0x00020003 (ascii "jO"))).map view = some (0, 0, false, []) := by decide
theorem test_isValid_above_max :
    (issued (stringRec 0x000B0004 (ascii "zzzzzzzzzzz"))).map view = some (0, 0, true, []) := by decide
theorem test_isValid_ten :
    (issued (stringRec 0x000A0004 (ascii "11111111111"))).map view = some (0, 0, false, []) := by decide
theorem test_decodePartial_two :
    (issued (stringRec 0x00020005 (ascii "jp"))).map view = some (0, 18442876650538356224, true, []) := by decide
theorem test_decodePartial_overflow :
    (issued (stringRec 0x00020005 (ascii "jq"))).map view = some (0, 0, false, []) := by decide

/-! PACK, vector table V-K, in both builds. -/

theorem test_pack_example :
    (issued { withA 0x00000006 1700000000000 with b := 0x12345 }).map view
      = some (0, 0x0583D926EF912345, false, []) := by decide
theorem test_packcore_below_epoch :
    packcore .error 1321009871110 5 = none ∧ packcore .wrap 1321009871110 5 = some 0xFFFFFFFFFFF00005
      ∧ packcore .wrap 0 0 = some 0xECC6DAD06F900000 ∧ packcore .error 18913195915527 7 = some 7 := by decide

/-! XID and XID_STRING, vector table V-X. -/

theorem test_xid_example :
    (answered 0x00000007 1700000000000 (.bytes [0xAB, 0xCD, 0xEF])).map view
      = some (0, 0x0583D926EF9BCDEF, false, []) := by decide
theorem test_xid_unavailable_wins :
    (answered 0x00000007 1321009871110 .unavailable).map view = some (4, 0, false, []) := by decide
theorem test_xidString_example :
    (answered 0x00000008 1700000000000 (.bytes [0xAB, 0xCD, 0xEF])).map view
      = some (0, 0, false, ascii "1vWA9uRvk5t") := by decide
theorem test_xidString_wrapped_time :
    (answered 0x00000008 18913195915527 (.bytes [0x0F, 0xFF, 0xFF])).map view
      = some (0, 0, false, ascii "11111116Nht") := by decide

/-! TIMEPOINT and TIMESTAMP, vector table V-T. -/

theorem test_timepoint_max :
    (issued (withA 0x00000009 0xFFFFFFFFFFFFFFFF)).map view = some (0, 18913195915526, false, []) := by decide
theorem test_timepoint_low_bits :
    (issued (withA 0x00000009 0x00000000000FFFFF)).map view = some (0, 1321009871111, false, []) := by decide
theorem test_timestamp_example :
    (issued (withA 0x0000000A 0x0583D926EF912345)).map view
      = some (0, 0, false, ascii "2023-11-14T22:13:20.000Z") := by decide
theorem test_timestamp_max :
    (issued (withA 0x0000000A 0xFFFFFFFFFFFFFFFF)).map view
      = some (0, 0, false, ascii "2569-05-02T17:31:55.526Z") := by decide

/-! RANDOM_BITS, RANDOM and RANDOM_STRING, vector table V-R. -/

theorem test_randomBits_masks :
    (answered 0x00000C0B 0 (.bytes [0xAB, 0xCD])).map view = some (0, 0xBCD, false, []) := by decide
theorem test_randomBits_65 : (issued (bareCommand 0x0000410B)).map view = some (2, 0, false, []) := by decide
theorem test_random_example :
    (answered 0x0000000C 0 (.bytes [0x01, 0x23, 0x45, 0x67, 0x89, 0xAB, 0xCD, 0xEF])).map view
      = some (0, 0x0123456789ABCDEF, false, []) := by decide
theorem test_randomString_example :
    (answered 0x0000000D 0 (.bytes [0x01, 0x23, 0x45, 0x67, 0x89, 0xAB, 0xCD, 0xEF])).map view
      = some (0, 0, false, ascii "1C3CPq7c8PY") := by decide

/-! The protocol vectors of 95_test_vectors.md. -/

theorem test_protocol_issue_random :
    step (idleState [.issue (bareCommand 0x0000000C) 0]) = .next (waitState 0x0000000C 8 none []) := by rfl
theorem test_protocol_reset_withdraws :
    step (waitState 0x0000000C 8 none [.reset]) = .next (withdrawnState []) := by rfl
theorem test_protocol_late_answer :
    step (withdrawnState [.answer 0 (.bytes [1])]) = .next { State.reset with nextRequest := 1 } := by rfl
theorem test_protocol_issue_clears :
    ∀ x : Resp, (after (step { idleState [.issue (bareCommand 0x0000000C) 0] with resp := x })).map State.resp
      = some Resp.zero := by intro x; rfl
theorem test_protocol_answer_of_wrong_length :
    step (waitState 0x0000000C 8 none [.answer 0 (.bytes [1])]) = .refused .answerOfWrongLength := by rfl

/-! Witnesses of the statements' hypotheses. -/

theorem random_waits_inv (es : List AgentStep) : (waitState 0x0000000C 8 none es).Inv where
  phase_pending := by simp [waitState, waiting]
  waiting_resp _ := rfl
  resp_ok := respOk_zero
  pending_latched p h := by cases h; rfl
  pending_ok p h := by cases h; exact ⟨.random, rfl, rfl, by decide⟩
  pending_issued p h := by cases h; exact Nat.zero_lt_one
  pending_open p h := by cases h; exact List.not_mem_nil
  withdrawn_issued r h := by cases h
  withdrawn_once := List.nodup_nil

theorem randomBits_waits_inv (es : List AgentStep) : (waitState 0x0000400B 8 none es).Inv where
  phase_pending := by simp [waitState, waiting]
  waiting_resp _ := rfl
  resp_ok := respOk_zero
  pending_latched p h := by cases h; rfl
  pending_ok p h := by cases h; exact ⟨.randomBits 64, rfl, rfl, by decide⟩
  pending_issued p h := by cases h; exact Nat.zero_lt_one
  pending_open p h := by cases h; exact List.not_mem_nil
  withdrawn_issued r h := by cases h
  withdrawn_once := List.nodup_nil

theorem xid_waits_inv (es : List AgentStep) : (waitState 0x00000007 3 (some 1700000000000) es).Inv where
  phase_pending := by simp [waitState, waiting]
  waiting_resp _ := rfl
  resp_ok := respOk_zero
  pending_latched p h := by cases h; rfl
  pending_ok p h := by cases h; exact ⟨.xid, rfl, rfl, by decide⟩
  pending_issued p h := by cases h; exact Nat.zero_lt_one
  pending_open p h := by cases h; exact List.not_mem_nil
  withdrawn_issued r h := by cases h
  withdrawn_once := List.nodup_nil

theorem withdrawn_inv (es : List AgentStep) : (withdrawnState es).Inv where
  phase_pending := by simp [withdrawnState, State.reset]
  waiting_resp h := by cases h
  resp_ok := respOk_zero
  pending_latched p h := by cases h
  pending_ok p h := by cases h
  pending_issued p h := by cases h
  pending_open p h := by cases h
  withdrawn_issued := by simp [withdrawnState]
  withdrawn_once := by simp [withdrawnState]

theorem test_witness_DecodeOfEncodeIsTheCommand :
    (Instr.decode 0).WellFormed ∧ (Instr.decode 255).WellFormed ∧ (Instr.isValidPartial 255).WellFormed
      ∧ (Instr.isValid 255).WellFormed ∧ (Instr.decodePartial 255).WellFormed ∧ (Instr.randomBits 0).WellFormed
      ∧ (Instr.randomBits 65).WellFormed ∧ (Instr.randomBits 127).WellFormed := by decide

theorem test_witness_EncodeOfDecodeIsTheWord :
    decode 0x00FF0002 = .ok (.decode 255) ∧ decode 0x00000002 = .ok (.decode 0)
      ∧ decode 0x00007F0B = .ok (.randomBits 127) ∧ decode 0x0000000B = .ok (.randomBits 0) := by decide

theorem test_witness_LegalWordsAreTheTableRowsAndNoOthersRun :
    ∀ w ∈ [0x00000000#32, 0x0000000E#32, 0x00000011#32, 0x00008001#32, 0x01000001#32, 0x00010001#32, 0x00000101#32],
      (idleState [.issue (bareCommand w) 7]).inputs = .issue (bareCommand w) 7 :: []
        ∧ (idleState [.issue (bareCommand w) 7]).phase = .idle ∧ legal (bareCommand w).cmd = false := by
  intro w h
  fin_cases h <;> exact ⟨rfl, rfl, by decide⟩

theorem test_witness_StepRunsTheDecodedCommand :
    (idleState [.issue (bareCommand 0x000B0002) 7]).inputs = .issue (bareCommand 0x000B0002) 7 :: []
      ∧ (idleState [.issue (bareCommand 0x000B0002) 7]).phase = .idle
      ∧ decode (bareCommand 0x000B0002).cmd = .ok (.decode 11) := by decide

/-- AcceptanceCompletesOrWaitsForEntropy: an illegal word, a pure command, RANGE_ERROR, and the two kinds of request. -/
theorem test_witness_AcceptanceCompletesOrWaitsForEntropy :
    (∀ w, (idleState [.issue (bareCommand w) 7]).inputs = .issue (bareCommand w) 7 :: []
        ∧ (idleState [.issue (bareCommand w) 7]).phase = .idle)
      ∧ legal 0x0000000E = false ∧ decode 0x00000006 = .ok .pack ∧ requestOf .pack = none
      ∧ decode 0x0000410B = .ok (.randomBits 65) ∧ requestOf (.randomBits 65) = none
      ∧ decode 0x0000400B = .ok (.randomBits 64) ∧ requestOf (.randomBits 64) = some 8
      ∧ decode 0x00000007 = .ok .xid ∧ requestOf .xid = some 3 ∧ classOf .xid = .entropyClock :=
  ⟨fun _ => ⟨rfl, rfl⟩, by decide⟩

theorem test_witness_IssueIsTakenExactlyInIdle :
    ∃ (s t : State) (p : Pending), s.phase = .waitEntropy ∧ s.pending = some p ∧ step s = .next t ∧ t.phase = .idle :=
  ⟨waitState 0x0000000C 8 none [.answer 0 .unavailable], _, _, rfl, rfl, rfl, rfl⟩

theorem test_witness_AResponseLastsUntilIssueOrReset :
    ∃ s t : State, s.phase = .idle ∧ s.resp.valid = true ∧ (∀ e ∈ s.inputs, e ≠ .reset ∧ ∀ c clock, e ≠ .issue c clock)
      ∧ Runs 2 s t :=
  ⟨{ idleState [.read, .read] with resp := okNumber 5 }, _, rfl, rfl, by simp [idleState], rfl⟩

theorem test_witness_OnlyValidationCommandsSetV :
    ∃ s t : State, step s = .next t ∧ t.resp.v = true ∧ s.resp = Resp.zero :=
  ⟨idleState [.issue (stringRec 0x000B0004 (ascii "zzzzzzzzzzz")) 0], _, rfl, by decide, rfl⟩

theorem test_witness_IssueIsRefusedWhileWaiting :
    (waitState 0x0000000C 8 none [.issue (bareCommand 1) 7]).inputs = .issue (bareCommand 1) 7 :: []
      ∧ (waitState 0x0000000C 8 none [.issue (bareCommand 1) 7]).phase = .waitEntropy := by decide

theorem test_witness_ReadReturnsTheResponse : (waitState 0x0000000C 8 none [.read]).inputs = .read :: [] := by decide

/-- Both cases of ResetClearsTheBlock and ResetLeavesTheAgentsAlone: a request in progress, and none. -/
theorem test_witness_ResetClearsTheBlock :
    (waitState 0x0000000C 8 none [.reset]).inputs = .reset :: []
      ∧ (waitState 0x0000000C 8 none [.reset]).pending.map Pending.req = some 0
      ∧ (idleState [.reset]).inputs = .reset :: [] ∧ (idleState [.reset]).pending = none := by decide

theorem test_witness_LateAnswersAreDiscarded :
    (withdrawnState [.answer 0 .unavailable]).inputs = .answer 0 .unavailable :: []
      ∧ 0 ∈ (withdrawnState [.answer 0 .unavailable]).withdrawn := by decide

/-- RANDOM waits, RESET withdraws its request, RANDOM is issued again and waits, and the first request is answered. -/
theorem test_witness_NoAnswerFromBeforeResetCompletesACommand :
    ∃ (s t u v : State) (p : Pending) (ans : Answer) (rest rest' : List AgentStep),
      s.Inv ∧ s.pending = some p ∧ s.inputs = .reset :: rest ∧ step s = .next t ∧ Runs 1 t u
        ∧ step (withAnswer p.req ans rest' u) = .next v ∧ u.phase = .waitEntropy :=
  ⟨waitState 0x0000000C 8 none [.reset, .issue (bareCommand 0x0000000C) 0], _, _, _, _, .bytes [1], _, [],
    random_waits_inv _, rfl, rfl, rfl, rfl, rfl, rfl⟩

/-- RANDOM's request is answered; at once, and after a second RANDOM waits under another number. -/
theorem test_witness_ARequestIsAnsweredOnce :
    ∃ (s t u : State) (p : Pending) (rest : List AgentStep), s.Inv ∧ s.pending = some p
      ∧ step (withAnswer p.req .unavailable rest s) = .next t ∧ Runs 0 t t ∧ Runs 1 t u
      ∧ t.phase = .idle ∧ u.phase = .waitEntropy ∧ u.pending.map Pending.req = some 1 :=
  ⟨waitState 0x0000000C 8 none [], _, _, _, [.issue (bareCommand 0x0000000C) 0], random_waits_inv _, rfl, rfl, rfl, rfl,
    rfl, rfl, rfl⟩

theorem test_witness_UnavailableEntropyEndsTheCommand :
    ∃ p, (waitState 0x0000000C 8 none []).phase = .waitEntropy ∧ (waitState 0x0000000C 8 none []).pending = some p
      ∧ p.req ∉ (waitState 0x0000000C 8 none []).withdrawn := ⟨_, rfl, rfl, by decide⟩

theorem test_witness_WaitingLastsUntilAnswerOrReset :
    ∃ (s t : State) (p : Pending), s.phase = .waitEntropy ∧ s.pending = some p
      ∧ (∀ e ∈ s.inputs, e ≠ .reset ∧ ∀ ans, e ≠ .answer p.req ans) ∧ Runs 3 s t :=
  ⟨waitState 0x0000000C 8 none [.read], _, _, rfl, rfl, by simp [waitState], rfl⟩

/-- EveryStepKeepsTheInvariant and StepsAreTakenExactlyWhenEnabled: a step of each kind from a state with the invariant. -/
theorem test_witness_EveryStepKeepsTheInvariant :
    (∃ s t, s.Inv ∧ step s = .next t ∧ s.inputs = [.reset])
      ∧ (∃ s t, s.Inv ∧ step s = .next t ∧ s.inputs = [.answer 0 .unavailable])
      ∧ (∃ s t, s.Inv ∧ step s = .next t ∧ s.inputs = [.issue (bareCommand 1) 0]) :=
  ⟨⟨waitState 0x0000000C 8 none [.reset], _, random_waits_inv _, rfl, rfl⟩,
    ⟨waitState 0x00000007 3 (some 1700000000000) [.answer 0 .unavailable], _, xid_waits_inv _, rfl, rfl⟩,
    ⟨withdrawnState [.issue (bareCommand 1) 0], _, withdrawn_inv _, rfl, rfl⟩⟩

theorem test_witness_StepsAreTakenExactlyWhenEnabled :
    Enabled (.answer 0 (.bytes [1])) (withdrawnState [.answer 0 (.bytes [1])])
      ∧ ¬ Enabled (.issue (bareCommand 1) 0) (waitState 0x0000000C 8 none [.issue (bareCommand 1) 0])
      ∧ ¬ Enabled (.answer 1 .unavailable) (waitState 0x0000000C 8 none [.answer 1 .unavailable])
      ∧ (idleState []).inputs = [] := by
  refine ⟨.inl (by decide), nofun, ?_, rfl⟩
  rintro (h | ⟨-, p, h, h', -⟩)
  · cases h
  · cases h
    cases h'

theorem test_witness_PureCommandsWriteOnlyTheResponse :
    ∀ i ∈ [Instr.encode, .decode 255, .isValidPartial 255, .isValid 255, .decodePartial 255, .pack, .timepoint, .timestamp],
      i.WellFormed ∧ classOf i = .pure := by
  intro i h
  fin_cases h <;> exact ⟨by decide, rfl⟩

theorem test_witness_EntropyCommandsWriteOnlyTheRequest :
    ∀ q ∈ [(Instr.xid, some 3), (.xidString, some 3), (.randomBits 0, some 0), (.randomBits 64, some 8),
        (.randomBits 65, none), (.random, some 8), (.randomString, some 8)],
      classOf q.1 ≠ .pure ∧ requestOf q.1 = q.2 := by decide

theorem test_witness_OtherCommandsNeverReadTheClock :
    classOf .random ≠ .entropyClock ∧ ∃ t, exec .random (latchedState (bareCommand 0x0000000C)) = .next t :=
  ⟨by decide, _, rfl⟩

theorem test_witness_ResponsesDoNotDependOnEarlierCommands :
    (∃ s s' : State, s.phase = .idle ∧ s'.phase = .idle ∧ s.inputs = .issue (bareCommand 1) 3 :: []
      ∧ s'.inputs = .issue (bareCommand 1) 3 :: [.read] ∧ s.pending = none ∧ s'.pending = none ∧ s.latched ≠ s'.latched)
    ∧ ∃ (s s' t : State) (p p' : Pending), s.Inv ∧ s'.Inv ∧ s.pending = some p ∧ s'.pending = some p'
      ∧ p.cmd.cmd = p'.cmd.cmd ∧ p.clk = p'.clk
      ∧ step (withAnswer p.req (.bytes [1, 2, 3, 4, 5, 6, 7, 8]) [] s) = .next t :=
  ⟨⟨idleState [.issue (bareCommand 1) 3],
      { latchedState (bareCommand 2) with inputs := .issue (bareCommand 1) 3 :: [.read] },
      rfl, rfl, rfl, rfl, rfl, rfl, by decide⟩,
    waitState 0x0000000C 8 none [], waitState 0x0000000C 8 none [.read], _, _, _, random_waits_inv _, random_waits_inv _,
      rfl, rfl, rfl, rfl, rfl⟩

/-- Records that differ in an operand the commands do not read: B and S, S alone, and the bytes of S from SLEN on. -/
theorem test_witness_UnreadOperandsAreIgnored :
    (withA 1 5).a = { withA 1 5 with b := 7 }.a
      ∧ (withA 6 5).b = { withA 6 5 with s := (stringRec 6 [0x31]).s }.b
      ∧ (∀ j (h : j < 11), j < 2 →
          (stringRec 0x00020005 [0x31, 0x32, 0x33]).s[j] = (stringRec 0x00020005 [0x31, 0x32, 0x34]).s[j]) := by decide

theorem test_witness_ErrorsAreReportedByPriority :
    ∀ w ∈ [0x000B000B#32, 0x0000410B#32, 0x00007F0B#32, 0x00000007#32, 0x00000008#32],
      (idleState [.issue (bareCommand w) 1321009871110]).inputs = .issue (bareCommand w) 1321009871110 :: []
        ∧ (idleState [.issue (bareCommand w) 1321009871110]).phase = .idle
        ∧ (idleState [.issue (bareCommand w) 1321009871110]).nextRequest
            ∉ (idleState [.issue (bareCommand w) 1321009871110]).withdrawn
        ∧ (legal w = false ∨ decode w = .ok (.randomBits 65) ∨ decode w = .ok (.randomBits 127)
          ∨ ((decode w = .ok .xid ∨ decode w = .ok .xidString) ∧ (1321009871110#64).toNat < Config.epochMs)) := by
  intro w h
  fin_cases h <;> exact ⟨rfl, rfl, by decide, by decide⟩

/-- Every statement about a command's latched operands: a state with a command latched. -/
theorem test_witness_latched (c : CmdRec) : (latchedState c).latched = some c := rfl

/-- AccumulationIsTheGuardedValue: the largest value, the smallest above it, and ten characters. -/
theorem test_witness_AccumulationIsTheGuardedValue :
    (ascii "jpXCZedGfVQ").length ≤ 11 ∧ val (ascii "jpXCZedGfVQ") = 2 ^ 64 - 1
      ∧ (ascii "jpXCZedGfVR").length ≤ 11 ∧ val (ascii "jpXCZedGfVR") = 2 ^ 64
      ∧ (ascii "zzzzzzzzzz").length ≤ 10 ∧ alphaValid (ascii "zzzzzzzzzz") = true
      ∧ alphaValid (ascii "0") = false := by decide

/-- DecodeGivesTheValueOrInvalid and ValidStringsAboveRangeDoNotDecode: both cases at the largest value. -/
theorem test_witness_DecodeGivesTheValueOrInvalid :
    (stringRec 0x000B0002 (ascii "jpXCZedGfVQ")).s.toList = ascii "jpXCZedGfVQ"
      ∧ alphaValid (ascii "jpXCZedGfVQ") = true ∧ val (ascii "jpXCZedGfVQ") ≤ 2 ^ 64 - 1
      ∧ alphaValid (ascii "jpXCZedGfVR") = true ∧ 2 ^ 64 - 1 < val (ascii "jpXCZedGfVR")
      ∧ 0x6A#8 < (stringRec 0x000B0002 (ascii "k1111111111")).s[0] := by decide

/-- IsValidPartialChecksTheCharacters and IsValidChecksLengthAndCharacters: SLEN 0, 10, 11 and 12. -/
theorem test_witness_IsValidChecksTheCharacters :
    [0, 10, 11, 12].map (fun l => isValidPartialStr l ((ascii "11111111111").take l)) = [true, true, true, false]
      ∧ [0, 10, 11, 12].map (fun l => isValidStr l ((ascii "11111111111").take l)) = [false, false, true, false] := by
  decide

/-- DecodePartialLeftJustifies: SLEN 0, 11 and 12, and one character at the largest value. -/
theorem test_witness_DecodePartialLeftJustifies :
    val [] * 58 ^ (11 - 0) ≤ 2 ^ 64 - 1 ∧ val (ascii "j") * 58 ^ (11 - 1) ≤ 2 ^ 64 - 1
      ∧ 2 ^ 64 - 1 < val (ascii "k") * 58 ^ (11 - 1) ∧ val (ascii "jpXCZedGfVQ") * 58 ^ (11 - 11) ≤ 2 ^ 64 - 1 := by decide

theorem test_witness_BadStringsAreRejectedByAllFour :
    11 < 12 ∧ ∃ j, ∃ h : j < 11, j < 11 ∧ rev (stringRec 0x000B0002 (ascii "jpXCZedGfVl")).s[j] = none :=
  ⟨by decide, 10, by decide, by decide, by decide⟩

/-- EncodeAndDecodeAreInverse, second half, and PartialDecodeIsTheLeastWithThatBeginning, at the first and last k. -/
theorem test_witness_PartialDecodeIsTheLeastWithThatBeginning :
    ∃ t, exec (.decode 11) (latchedState (stringRec 0x000B0002 (ascii "jpXCZedGfVQ"))) = .next t ∧ t.resp.v = true
      ∧ (0 ≤ 11 ∧ 11 ≤ 11) := ⟨_, rfl, by decide, by decide⟩

theorem test_witness_StringOrderIsNumericOrder :
    (ascii "1C3CPq7c8PY").length = (ascii "1vWA9uRvk5t").length ∧ alphaValid (ascii "1C3CPq7c8PY") = true
      ∧ alphaValid (ascii "1vWA9uRvk5t") = true := by decide

/-- PackWritesThePayload: the times about EPOCH_MS and about the wrap of 2^44. -/
theorem test_witness_PackWritesThePayload :
    ¬ Config.epochMs ≤ 1321009871110 ∧ Config.epochMs ≤ 1321009871111
      ∧ payloadOf 18913195915526 0xFFFFF = 2 ^ 64 - 1 ∧ payloadOf 18913195915527 7 = 7
      ∧ payloadOf 1321009871110 5 = 0xFFFFFFFFFFF00005 := by decide

theorem test_witness_PackedFieldsDoNotOverlap :
    packcore .error 1321009871111 0 = some 0 ∧ packcore .wrap 1321009871110 5 = some 0xFFFFFFFFFFF00005 := by decide

theorem test_witness_XidCompletesWithThePayload :
    decode (bareCommand 0x00000007).cmd = .ok .xid ∧ decode (bareCommand 0x00000008).cmd = .ok .xidString
      ∧ (latchedState (bareCommand 0x00000007)).nextRequest ∉ (latchedState (bareCommand 0x00000007)).withdrawn := by decide

theorem test_witness_TimepointInvertsPack :
    (∃ t, exec .pack (latchedState (withA 6 1321009871111)) = .next t ∧ t.resp.status = 0#4)
      ∧ (∃ t, exec .pack (latchedState (withA 6 18913195915527)) = .next t ∧ t.resp.status = 0#4) :=
  ⟨⟨_, rfl, by decide⟩, ⟨_, rfl, by decide⟩⟩

theorem test_witness_RandomBitsCompletesWithTheMaskedBytes :
    ∀ q ∈ [(0x0000000B#32, 0, []), (0x0000010B#32, 1, [0xFF#8]), (0x0000080B#32, 8, [0xA5#8]),
        (0x0000090B#32, 9, [0xFF#8, 0xFF#8]), (0x0000400B#32, 64, List.replicate 8 0xFF#8)],
      decode (bareCommand q.1).cmd = .ok (.randomBits q.2.1)
        ∧ (latchedState (bareCommand q.1)).nextRequest ∉ (latchedState (bareCommand q.1)).withdrawn
        ∧ q.2.1 ≤ 64 ∧ q.2.2.length = (q.2.1 + 7) / 8 := by decide

/-- Its other clause, and RandomBitsAbove64IsARangeError: the first and the last n above 64. -/
theorem test_witness_RandomBitsAbove64IsARangeError :
    decode (bareCommand 0x0000410B).cmd = .ok (.randomBits 65) ∧ 64 < 65
      ∧ decode (bareCommand 0x00007F0B).cmd = .ok (.randomBits 127) ∧ 64 < 127 := by decide

theorem test_witness_RandomBitsReachesExactlyItsRange :
    ∃ p, (waitState 0x0000400B 8 none []).Inv ∧ (waitState 0x0000400B 8 none []).pending = some p
      ∧ decode p.cmd.cmd = .ok (.randomBits 64) := ⟨_, randomBits_waits_inv _, rfl, rfl⟩

theorem test_witness_RandomCompletesWithTheEightBytes :
    decode (bareCommand 0x0000000C).cmd = .ok .random ∧ decode (bareCommand 0x0000000D).cmd = .ok .randomString
      ∧ (latchedState (bareCommand 0x0000000C)).nextRequest ∉ (latchedState (bareCommand 0x0000000C)).withdrawn
      ∧ (List.replicate 8 (0xFF : Byte)).length = 8 := by decide

end Sys2Proof.Tests
end

section
/-! PROOFS. 10_state.md: what ISSUE, ANSWER and RESET do to the block (O6, O7, O12). -/

namespace Sys2Proof

/-- The words of `legal` are the words that decode (30_encoding.md R73). -/
theorem legal_iff_exists_decode_ok (w : Word) : legal w = true ↔ ∃ i, decode w = .ok i := by
  unfold decode
  split_ifs with h0 h1 h2
  · simp [legal, h0]
  · simp [legal, h1]
  · simp [legal, h2]
  · rw [not_not] at h0 h1 h2
    split
    case h_14 =>
      have hop : ¬ (1 ≤ Cmd.op w ∧ Cmd.op w ≤ 13) := by
        simp only [imp_false] at *
        omega
      simp only [legal, Bool.and_eq_true, decide_eq_true_eq, reduceCtorEq, exists_false, iff_false]
      exact fun h => hop h.1.1.1
    all_goals
      rename_i hop
      simp [legal, hop, h0, h1, h2, exists_decodePlain_ok, exists_decodeWithSlen_ok, exists_decodeWithNbits_ok]

end Sys2Proof

namespace Sys2Proof.Machine

/-- A command that makes no request is pure, or it is a RANDOM_BITS above 64 (10_state.md R36, 42_randomness.md R181). -/
theorem classOf_pure_or_randomBits_of_requestOf_none (i : Instr) (h : requestOf i = none) :
    classOf i = .pure ∨ ∃ n, i = .randomBits n ∧ 64 < n := by
  cases i with
  | randomBits n => exact .inr ⟨n, rfl, by simpa [requestOf] using h⟩
  | xid | xidString | random | randomString => simp [requestOf] at h
  | encode | decode | isValidPartial | isValid | decodePartial | pack | timepoint | timestamp => exact .inl rfl

theorem exec_randomBits_above_64 (n : Nat) (s : State) (h : 64 < n) :
    exec (.randomBits n) s = .next (respond (errorResp Status.rangeError) s) := by
  simp [exec, execRandomBits, h, raise]

/-- What a command that makes no request responds is a pure command's response or RANGE_ERROR. -/
theorem pure_or_rangeError_of_exec_respond (i : Instr) (s : State) (x : Resp) (hr : requestOf i = none)
    (hx : exec i s = .next (respond x s)) : classOf i = .pure ∨ RespIs x 2#4 0#64 false [] := by
  obtain hp | ⟨n, rfl, hn⟩ := classOf_pure_or_randomBits_of_requestOf_none i hr
  · exact .inl hp
  · rw [exec_randomBits_above_64 n s hn] at hx
    have hxe : errorResp Status.rangeError = x := congrArg State.resp (Host.Outcome.next.inj hx)
    exact .inr (hxe ▸ errorResp_is _)

section Issue

variable (s : State) (c : CmdRec) (clock : U64) (rest : List AgentStep)

/-- ISSUE as the next agent's step. -/
theorem step_issue (hin : s.inputs = .issue c clock :: rest) : step s = issue c clock { s with inputs := rest } :=
  step_of_inputs s _ rest hin

/-- ISSUE of an illegal word in PHASE = IDLE completes with ILLEGAL_COMMAND (10_state.md R37). -/
theorem step_issue_of_illegal (hin : s.inputs = .issue c clock :: rest) (hp : s.phase = .idle)
    (hl : legal c.cmd = false) :
    step s = .next (respond (errorResp Status.illegalCommand) (accept c clock { s with inputs := rest })) := by
  rw [step_issue s c clock rest hin, issue_of_idle c clock { s with inputs := rest } hp]
  cases hd : decode c.cmd with
  | error e => rfl
  | ok i => exact absurd ((legal_iff_exists_decode_ok c.cmd).2 ⟨i, hd⟩) (by simp [hl])

/-- ISSUE of a legal word in PHASE = IDLE is `exec` of its command on the accepted state (10_state.md R37). -/
theorem step_issue_of_decode (hin : s.inputs = .issue c clock :: rest) (hp : s.phase = .idle) (i : Instr)
    (hd : decode c.cmd = .ok i) : step s = exec i (accept c clock { s with inputs := rest }) := by
  rw [step_issue s c clock rest hin, issue_of_idle c clock { s with inputs := rest } hp, hd]

/-- ISSUE in PHASE = IDLE always has a next state. -/
theorem exists_step_issue_of_idle (hin : s.inputs = .issue c clock :: rest) (hp : s.phase = .idle) :
    ∃ t, step s = .next t := by
  cases hl : legal c.cmd with
  | false => exact ⟨_, step_issue_of_illegal s c clock rest hin hp hl⟩
  | true =>
    obtain ⟨i, hd⟩ := (legal_iff_exists_decode_ok c.cmd).1 hl
    rw [step_issue_of_decode s c clock rest hin hp i hd]
    obtain ⟨x, hx, -⟩ | ⟨k, clk, hx, -⟩ := exec_cases i (accept c clock { s with inputs := rest })
    · exact ⟨_, hx⟩
    · exact ⟨_, hx⟩

/-- ISSUE has a next state in PHASE = IDLE alone (10_state.md R35). -/
theorem idle_of_step_issue (hin : s.inputs = .issue c clock :: rest) (t : State) (h : step s = .next t) :
    s.phase = .idle :=
  (issue_next_cases c clock _ t ((step_issue s c clock rest hin).symm.trans h)).1

end Issue

/-- A step that ends WAIT_ENTROPY is RESET or an answer to the pending request (10_state.md R35). -/
theorem reset_or_answer_of_step_ends_wait (s t : State) (p : Pending) (hs : s.phase = .waitEntropy)
    (hp : s.pending = some p) (h : step s = .next t) (ht : t.phase = .idle) :
    ∃ e rest, s.inputs = e :: rest ∧ (e = .reset ∨ ∃ ans, e = .answer p.req ans) := by
  have hne : t.phase ≠ s.phase := by simp [hs, ht]
  cases hin : s.inputs with
  | nil =>
    rw [step_of_no_inputs s hin] at h
    cases h
    exact absurd rfl hne
  | cons e rest =>
    refine ⟨e, rest, rfl, ?_⟩
    cases e with
    | issue c clock => simp [idle_of_step_issue s c clock rest hin t h] at hs
    | reset => exact .inl rfl
    | read =>
      rw [step_of_inputs s _ rest hin] at h
      cases h
      exact absurd rfl hne
    | answer req ans =>
      rw [step_of_inputs s _ rest hin] at h
      obtain ⟨-, rfl⟩ | ⟨q, x, -, -, hq, hreq, -⟩ := answer_next_cases req ans _ t h
      · exact absurd rfl hne
      · have hqp : q = p := Option.some.inj (hq.symm.trans hp)
        exact .inr ⟨ans, by rw [← hreq, hqp]⟩

/-- RESET puts the number of the request in progress, if there is one, before the withdrawn ones. -/
theorem resetBlock_withdrawn (s : State) :
    (resetBlock s).withdrawn = (s.pending.map Pending.req).toList ++ s.withdrawn := by
  cases hp : s.pending with
  | none => simp [resetBlock_withdrawn_of_none s hp]
  | some p => simp [resetBlock_withdrawn_of_some s p hp]

/-- Settles O6: `exec_cases` on the accepted state gives the two ways a legal command goes on. -/
theorem acceptanceCompletesOrWaitsForEntropy : Obligations.AcceptanceCompletesOrWaitsForEntropy := by
  intro s c clock rest hin hp
  refine ⟨fun hl => ⟨_, step_issue_of_illegal s c clock rest hin hp hl, errorResp_is _⟩, fun i hd => ?_⟩
  have hstep := step_issue_of_decode s c clock rest hin hp i hd
  refine ⟨hstep, ?_⟩
  obtain ⟨x, hx, hv, hok, hr⟩ | ⟨k, clk, hx, hk, rfl⟩ := exec_cases i (accept c clock { s with inputs := rest })
  · rw [hr]
    exact ⟨x, hstep.trans hx, hv, hok, pure_or_rangeError_of_exec_respond i _ x hr hx⟩
  · rw [hk]
    exact hstep.trans hx

/-- Settles O7: ISSUE by its two lemmas, the end of WAIT_ENTROPY by a case split on the agent's step. -/
theorem issueIsTakenExactlyInIdle : Obligations.IssueIsTakenExactlyInIdle :=
  ⟨fun s c clock rest hin =>
    ⟨fun ⟨t, h⟩ => idle_of_step_issue s c clock rest hin t h, exists_step_issue_of_idle s c clock rest hin⟩,
    reset_or_answer_of_step_ends_wait⟩

/-- Settles O12: the step is `resetBlock`, whose fields are known. -/
theorem resetClearsTheBlock : Obligations.ResetClearsTheBlock := fun s rest hin =>
  ⟨resetBlock { s with inputs := rest }, step_of_inputs s _ rest hin,
    rfl, rfl, rfl, rfl, rfl, rfl, rfl, rfl, rfl, resetBlock_withdrawn _⟩

end Sys2Proof.Machine
end

section
/-! PROOFS. 30_encoding.md: the words `legal` accepts are the words of the table's rows, and no other runs (O4). -/

namespace Sys2Proof

section Rows

variable (w : Word) (name : String) (m : Word)

/-- A row whose mask keeps every bit matches its own word alone. -/
theorem rowMatches_allBits_iff : rowMatches w (name, 0xFFFFFFFF#32, m) = true ↔ w.toNat = m.toNat := by
  have h : w &&& 0xFFFFFFFF#32 = w := BitVec.and_allOnes
  simp only [rowMatches, h, beq_iff_eq, ← BitVec.toNat_inj]

/-- A row of the string class matches a word whatever its SLEN. -/
theorem rowMatches_anySlen_iff : rowMatches w (name, 0xFF00FFFF#32, m) = true
    ↔ w.toNat / 2 ^ 24 * 2 ^ 24 + w.toNat % 2 ^ 16 = m.toNat := by
  simp only [rowMatches, beq_iff_eq, ← BitVec.toNat_inj, toNat_and_slen_mask]

/-- The row of RANDOM_BITS matches a word whatever its NBITS. -/
theorem rowMatches_anyNbits_iff : rowMatches w (name, 0xFFFF80FF#32, m) = true
    ↔ w.toNat / 2 ^ 15 * 2 ^ 15 + w.toNat % 2 ^ 8 = m.toNat := by
  simp only [rowMatches, beq_iff_eq, ← BitVec.toNat_inj, toNat_and_nbits_mask]

end Rows

/-- The words that match a row of the opcode table: by the rows of plain commands, of the string class and of
RANDOM_BITS (30_encoding.md R71, R72). -/
theorem exists_row_matches_iff (w : Word) : (∃ row ∈ opcodeTable, rowMatches w row = true) ↔
    (w.toNat = 1 ∨ (6 ≤ w.toNat ∧ w.toNat ≤ 10) ∨ w.toNat = 12 ∨ w.toNat = 13)
      ∨ (w.toNat / 2 ^ 24 = 0 ∧ 2 ≤ w.toNat % 2 ^ 16 ∧ w.toNat % 2 ^ 16 ≤ 5)
      ∨ (w.toNat / 2 ^ 15 = 0 ∧ w.toNat % 2 ^ 8 = 11) := by
  simp only [opcodeTable, List.cons_append, List.nil_append, List.exists_mem_cons_iff, List.not_mem_nil, false_and,
    exists_false, or_false, rowMatches_allBits_iff, rowMatches_anySlen_iff, rowMatches_anyNbits_iff, BitVec.toNat_ofNat]
  omega

/-- The four conditions of `legal`, on the number the word is (30_encoding.md R73). -/
theorem legal_iff_toNat (w : Word) : legal w = true ↔
    (1 ≤ w.toNat % 16 ∧ w.toNat % 16 ≤ 13) ∧ w.toNat / 16 % 16 = 0 ∧ w.toNat / 2 ^ 15 % 2 = 0 ∧ w.toNat / 2 ^ 24 = 0
      ∧ (w.toNat / 2 ^ 8 % 128 = 0 ∨ w.toNat % 16 = 11)
      ∧ (w.toNat / 2 ^ 16 % 256 = 0 ∨ (2 ≤ w.toNat % 16 ∧ w.toNat % 16 ≤ 5)) := by
  simp only [legal, Cmd.op_eq, Cmd.rsv0_eq, Cmd.nbits_eq, Cmd.rsv1_eq, Cmd.slen_eq, Cmd.rsv2_eq, Bool.and_eq_true,
    Bool.or_eq_true, decide_eq_true_eq, beq_iff_eq, and_assoc]

/-- The words of `legal` are the words of the table's rows (30_encoding.md R73). -/
theorem legal_iff_exists_row_matches (w : Word) : legal w = true ↔ ∃ row ∈ opcodeTable, rowMatches w row = true := by
  rw [legal_iff_toNat, exists_row_matches_iff]
  omega

end Sys2Proof

namespace Sys2Proof.Machine

/-- Settles O4: `legal` by its conditions, by the decoder and by the rows, then `step_issue_of_illegal`. -/
theorem legalWordsAreTheTableRowsAndNoOthersRun : Obligations.LegalWordsAreTheTableRowsAndNoOthersRun :=
  ⟨fun w => ⟨legal_iff_toNat w, legal_iff_exists_decode_ok w, legal_iff_exists_row_matches w⟩,
    fun s c clock rest hin hp hl => ⟨_, step_issue_of_illegal s c clock rest hin hp hl, errorResp_is _⟩⟩

end Sys2Proof.Machine
end

section
/-! PROOFS. 40_codec.md: what DECODE, IS_VALID_PARTIAL and IS_VALID respond (O31, O32, O33). -/

namespace Sys2Proof

/-- A word with SLEN and an opcode alone is put together from these two fields (30_encoding.md R70). -/
theorem slenWord_eq_ofFields (l : BitVec 8) (o : Nat) (ho : o < 16) :
    (0#8 ++ l ++ BitVec.ofNat 16 o : Word) = Cmd.ofFields o 0 l.toNat := by
  have hop : (BitVec.ofNat 16 o).toNat = o := by
    rw [BitVec.toNat_ofNat]
    omega
  apply BitVec.eq_of_toNat_eq
  rw [Cmd.toNat_ofFields, BitVec.toNat_append, BitVec.toNat_append,
    ← Nat.shiftLeft_add_eq_or_of_lt (BitVec.isLt _), ← Nat.shiftLeft_add_eq_or_of_lt l.isLt, hop]
  simp only [Nat.shiftLeft_eq, BitVec.toNat_ofNat]
  omega

/-- A word of the string class decodes to its command, whatever its SLEN (30_encoding.md R71, R87). -/
theorem decode_slenWord (l : BitVec 8) (i : Instr)
    (hi : i ∈ [Instr.decode l.toNat, .isValidPartial l.toNat, .isValid l.toNat, .decodePartial l.toNat]) :
    decode (0#8 ++ l ++ BitVec.ofNat 16 (opcodeOf i)) = .ok i := by
  have hl : l.toNat % 256 = l.toNat := Nat.mod_eq_of_lt l.isLt
  simp only [List.mem_cons, List.not_mem_nil, or_false] at hi
  have hop : opcodeOf i < 16 := by rcases hi with rfl | rfl | rfl | rfl <;> simp [opcodeOf]
  rw [slenWord_eq_ofFields l _ hop]
  rcases hi with rfl | rfl | rfl | rfl <;>
    simp [opcodeOf, decode, decodeWithSlen, Cmd.op_ofFields, Cmd.rsv0_ofFields, Cmd.rsv1_ofFields, Cmd.rsv2_ofFields,
      Cmd.nbits_ofFields, Cmd.slen_ofFields, hl]

end Sys2Proof

namespace Sys2Proof.Machine

/-- The accumulation is the value of an alphabet string that fits 64 bits, and INVALID else (40_codec.md R102). -/
theorem acc_eq (str : List Byte) :
    acc str = if alphaValid str = true ∧ val str ≤ maxU64 then some (val str) else none := by
  have hnil : str = [] → val str ≤ maxU64 := by
    rintro rfl
    simp
  rw [acc, accFrom_eq, Nat.zero_mul, Nat.zero_add]
  exact if_congr (and_congr_right fun _ => or_iff_left_of_imp hnil) rfl rfl

/-- The presented bytes are alphabet-valid exactly where REV knows each of them (40_codec.md R100). -/
theorem alphaValid_take_iff (v : Vector Byte 11) (n : Nat) :
    alphaValid (v.toList.take n) = true ↔ ∀ j (h : j < 11), j < n → ∃ d, rev v[j] = some d := by
  simp only [alphaValid, List.all_eq_true, inAlpha_iff, List.forall_mem_iff_getElem, List.length_take,
    Vector.length_toList, List.getElem_take, Vector.getElem_toList, lt_min_iff]
  exact ⟨fun h j hj hn => h j ⟨hn, hj⟩, fun h j hj => h j hj.2 hj.1⟩

/-- DECODE's result by the value of its 11 bytes (40_codec.md R103). -/
theorem decodeStr_take_eq (v : Vector Byte 11) (slen : Nat) :
    decodeStr slen (v.toList.take slen) = if slen = 11 ∧ alphaValid v.toList = true ∧ val v.toList ≤ 2 ^ 64 - 1
      then some (val v.toList) else none := by
  by_cases h : slen = 11
  · have htake : v.toList.take slen = v.toList := List.take_of_length_le (by simp [h])
    rw [htake, decodeStr, if_neg (not_not.2 h), acc_eq]
    exact if_congr (by simp [h]) rfl rfl
  · simp [decodeStr, h]

section Latched

variable (s : State) (c : CmdRec) (slen : Nat) (h : s.latched = some c)
include h

theorem exec_decode_of_latched : exec (.decode slen) s
    = .next (respond (decodedResp (decodeStr slen (c.s.toList.take slen))) s) := by
  rw [← operandStr_of_latched s c slen h]
  rfl

theorem exec_isValidPartial_of_latched : exec (.isValidPartial slen) s
    = .next (respond (okBool (isValidPartialStr slen (c.s.toList.take slen))) s) := by
  rw [← operandStr_of_latched s c slen h]
  rfl

theorem exec_isValid_of_latched : exec (.isValid slen) s
    = .next (respond (okBool (isValidStr slen (c.s.toList.take slen))) s) := by
  rw [← operandStr_of_latched s c slen h]
  rfl

end Latched

theorem isValidPartialStr_take_iff (v : Vector Byte 11) (slen : Nat) :
    isValidPartialStr slen (v.toList.take slen) = true
      ↔ slen ≤ 11 ∧ ∀ j (h : j < 11), j < slen → ∃ d, rev v[j] = some d := by
  rw [isValidPartialStr, Bool.and_eq_true, decide_eq_true_eq, alphaValid_take_iff]

theorem isValidStr_take_iff (v : Vector Byte 11) (slen : Nat) :
    isValidStr slen (v.toList.take slen) = true ↔ slen = 11 ∧ ∀ j (h : j < 11), ∃ d, rev v[j] = some d := by
  rw [isValidStr, Bool.and_eq_true, decide_eq_true_eq, alphaValid_take_iff]
  refine and_congr_right fun hl => forall₂_congr fun j hj => ?_
  subst hl
  exact ⟨fun hr => hr hj, fun hr _ => hr⟩

/-- Settles O31: the result of DECODE is `decodeStr_take_eq`, and its two cases are the two responses. -/
theorem decodeGivesTheValueOrInvalid : Obligations.DecodeGivesTheValueOrInvalid := by
  refine ⟨fun l => decode_slenWord l (.decode l.toNat) (by simp), fun s c slen h => ?_⟩
  refine ⟨_, exec_decode_of_latched s c slen h, ?_⟩
  rw [decodeStr_take_eq]
  split_ifs
  · exact okDecoded_is _
  · exact okInvalid_is

/-- Settles O32: V is the result of IS_VALID_PARTIAL, character by character. -/
theorem isValidPartialChecksTheCharacters : Obligations.IsValidPartialChecksTheCharacters :=
  ⟨fun l => decode_slenWord l (.isValidPartial l.toNat) (by simp), fun s c slen h =>
    ⟨_, exec_isValidPartial_of_latched s c slen h, ⟨_, okBool_is _⟩, isValidPartialStr_take_iff c.s slen⟩⟩

/-- Settles O33: V is the result of IS_VALID, character by character. -/
theorem isValidChecksLengthAndCharacters : Obligations.IsValidChecksLengthAndCharacters :=
  ⟨fun l => decode_slenWord l (.isValid l.toNat) (by simp), fun s c slen h =>
    ⟨_, exec_isValid_of_latched s c slen h, ⟨_, okBool_is _⟩, isValidStr_take_iff c.s slen⟩⟩

end Sys2Proof.Machine
end

section
/-! PROOFS. An entropy command from its request to the answer that ends it (10_state.md R37, R40), for any command. -/

namespace Sys2Proof.Machine

section Waiting

variable (s : State) (c : CmdRec) (k : Nat) (clk : Option U64) (rest : List AgentStep)

/-- The request of a latched command leaves the state `waiting`. -/
theorem start_of_latched (h : s.latched = some c) : start k clk s = waiting c k clk s := by
  rw [start, command_of_latched s c h]
  rfl

variable (hw : s.nextRequest ∉ s.withdrawn)
include hw

/-- The k bytes asked for end the wait with the response of the command's ANSWER half. -/
theorem step_waiting_bytes (i : Instr) (e : List Byte) (x : Resp) (hd : decode c.cmd = .ok i) (hl : e.length = k)
    (hf : finishInstr i clk e = some x) :
    step (withAnswer s.nextRequest (.bytes e) rest (waiting c k clk s))
      = .next (ended x rest (waiting c k clk s)) := by
  rw [step_withAnswer]
  exact answer_bytes { waiting c k clk s with inputs := rest } _ e x rfl rfl hw hl (by simp [finish, hd, hf])

/-- UNAVAILABLE ends the wait with ENTROPY_UNAVAILABLE. -/
theorem step_waiting_unavailable :
    step (withAnswer s.nextRequest .unavailable rest (waiting c k clk s))
      = .next (ended (errorResp Status.entropyUnavailable) rest (waiting c k clk s)) := by
  rw [step_withAnswer]
  exact answer_unavailable { waiting c k clk s with inputs := rest } _ rfl rfl hw

end Waiting

end Sys2Proof.Machine
end

section
/-! PROOFS. 41_bitpacker.md: what PACK, XID, XID_STRING and TIMEPOINT respond (O40, O42, O43, O44). -/

namespace Sys2Proof.Machine

/-- The 20-bit field of XID, by its three bytes: the high 4 bits of the first are dropped (41_bitpacker.md R144). -/
theorem toNat_xidRandom (e0 e1 e2 : Byte) :
    (xidRandom [e0, e1, e2]).toNat = e0.toNat % 16 * 2 ^ 16 + e1.toNat * 2 ^ 8 + e2.toNat := by
  have h1 := e1.isLt
  have h2 := e2.isLt
  rw [xidRandom, assemble_eq 20 _ rfl, BitVec.toNat_ofNat]
  simp only [bigEndian, List.length_cons, List.length_nil]
  omega

/-- The response of PACK and XID to a time and a random field (41_bitpacker.md R142, R143, R145). -/
theorem packResp_packcore_is (t r : U64) :
    if Packs t.toNat
    then RespIs (packResp (packcore Config.packUnderflow t r)) 0#4
      (BitVec.ofNat 64 (payloadOf t.toNat r.toNat)) false []
    else RespIs (packResp (packcore Config.packUnderflow t r)) 3#4 0#64 false [] := by
  rw [packcore_eq]
  split_ifs
  · exact okNumber_is _
  · exact errorResp_is _

/-- XID's ANSWER half, by its sample and its three bytes (41_bitpacker.md R145). -/
theorem finishXid_is (t : U64) (e0 e1 e2 : Byte) :
    if Packs t.toNat
    then RespIs (finishXid t [e0, e1, e2]) 0#4 (BitVec.ofNat 64
      (payloadOf t.toNat (e0.toNat % 16 * 2 ^ 16 + e1.toNat * 2 ^ 8 + e2.toNat))) false []
    else RespIs (finishXid t [e0, e1, e2]) 3#4 0#64 false [] := by
  rw [← toNat_xidRandom]
  exact packResp_packcore_is t (xidRandom [e0, e1, e2])

/-- XID_STRING's ANSWER half, by its sample and its three bytes (41_bitpacker.md R146). -/
theorem finishXidString_is (t : U64) (e0 e1 e2 : Byte) :
    if Packs t.toNat
    then ∃ str, RespIs (finishXidString t [e0, e1, e2]) 0#4 0#64 false str ∧ str.length = 11 ∧ alphaValid str = true
      ∧ val str = payloadOf t.toNat (e0.toNat % 16 * 2 ^ 16 + e1.toNat * 2 ^ 8 + e2.toNat)
    else RespIs (finishXidString t [e0, e1, e2]) 3#4 0#64 false [] := by
  rw [finishXidString, packcore_eq, toNat_xidRandom]
  split_ifs
  · refine ⟨_, okString_is _ (by simp), encodeStr_length _, alphaValid_encodeStr _, ?_⟩
    rw [val_encodeStr, BitVec.toNat_ofNat, Nat.mod_eq_of_lt (payloadOf_lt _ _)]
  · exact errorResp_is _

/-- TIMEPOINT's result fits 64 bits for every payload, with room to spare (41_bitpacker.md R147). -/
theorem toNat_timepoint (p : U64) : (BitVec.ofNat 64 (timepointOf p)).toNat = p.toNat / 2 ^ 20 + 1321009871111 := by
  have hp := p.isLt
  rw [timepointOf, BitVec.toNat_ofNat, BitVec.toNat_ushiftRight, Nat.shiftRight_eq_div_pow]
  simp only [Config.epochMs]
  omega

section Latched

variable (s : State) (c : CmdRec) (h : s.latched = some c)
include h

theorem exec_pack_of_latched :
    exec .pack s = .next (respond (packResp (packcore Config.packUnderflow c.a c.b)) s) := by
  rw [← operandA_of_latched s c h, ← operandB_of_latched s c h]
  rfl

theorem exec_timepoint_of_latched :
    exec .timepoint s = .next (respond (okNumber (BitVec.ofNat 64 (timepointOf c.a))) s) := by
  rw [← operandA_of_latched s c h]
  rfl

theorem exec_xid_of_latched : exec .xid s = .next (waiting c 3 (some s.clock) s) := by
  rw [← start_of_latched s c 3 (some s.clock) h]
  rfl

theorem exec_xidString_of_latched : exec .xidString s = .next (waiting c 3 (some s.clock) s) := by
  rw [← start_of_latched s c 3 (some s.clock) h]
  rfl

end Latched

/-- Settles O40: PACK responds with `packcore` of its operands, whose two cases are the two responses. -/
theorem packWritesThePayload : Obligations.PackWritesThePayload :=
  ⟨by decide, fun s c h => ⟨_, exec_pack_of_latched s c h, packResp_packcore_is c.a c.b⟩⟩

/-- Settles O42: the wait for 3 bytes ends with XID's ANSWER half, `packcore` of the sample and the 20-bit field. -/
theorem xidCompletesWithThePayload : Obligations.XidCompletesWithThePayload :=
  ⟨by decide, fun s c rest e0 e1 e2 h hd hw => ⟨exec_xid_of_latched s c h,
    ⟨_, step_waiting_bytes s c 3 _ rest hw .xid _ _ hd rfl rfl, finishXid_is s.clock e0 e1 e2⟩,
    _, step_waiting_unavailable s c 3 _ rest hw, errorResp_is _⟩⟩

/-- Settles O43: as O42, with the identifier of the payload in place of the payload. -/
theorem xidStringCompletesWithTheIdentifier : Obligations.XidStringCompletesWithTheIdentifier :=
  ⟨by decide, fun s c rest e0 e1 e2 h hd hw => ⟨exec_xidString_of_latched s c h,
    ⟨_, step_waiting_bytes s c 3 _ rest hw .xidString _ _ hd rfl rfl, finishXidString_is s.clock e0 e1 e2⟩,
    _, step_waiting_unavailable s c 3 _ rest hw, errorResp_is _⟩⟩

/-- Settles O44: the result is `toNat_timepoint`, and the high 44 bits of A are below 2^44. -/
theorem timepointAddsTheEpoch : Obligations.TimepointAddsTheEpoch := by
  refine ⟨by decide, fun s c h => ⟨_, _, exec_timepoint_of_latched s c h, okNumber_is _, toNat_timepoint c.a, ?_⟩⟩
  have ha := c.a.isLt
  rw [toNat_timepoint]
  omega

end Sys2Proof.Machine
end

section
/-! PROOFS. 42_randomness.md: what RANDOM_BITS, RANDOM and RANDOM_STRING request and respond (O48, O49, O51, O52). -/

namespace Sys2Proof

/-- A word with NBITS and RANDOM_BITS's opcode alone is put together from these two fields (30_encoding.md R70). -/
theorem nbitsWord_eq_ofFields (m : BitVec 7) :
    (0#16 ++ 0#1 ++ m ++ 0x0B#8 : Word) = Cmd.ofFields 0xB m.toNat 0 := by
  have hz : (0#16 ++ 0#1).toNat = 0 := rfl
  apply BitVec.eq_of_toNat_eq
  rw [Cmd.toNat_ofFields, BitVec.toNat_append, BitVec.toNat_append,
    ← Nat.shiftLeft_add_eq_or_of_lt (BitVec.isLt _), ← Nat.shiftLeft_add_eq_or_of_lt m.isLt, hz]
  simp only [Nat.shiftLeft_eq, BitVec.toNat_ofNat]
  omega

/-- RANDOM_BITS's word decodes to its command, whatever its NBITS (30_encoding.md R71, R87). -/
theorem decode_nbitsWord (m : BitVec 7) : decode (0#16 ++ 0#1 ++ m ++ 0x0B#8) = .ok (.randomBits m.toNat) := by
  have hm : m.toNat % 128 = m.toNat := Nat.mod_eq_of_lt m.isLt
  rw [nbitsWord_eq_ofFields]
  simp [decode, decodeWithNbits, Cmd.op_ofFields, Cmd.rsv0_ofFields, Cmd.rsv1_ofFields, Cmd.rsv2_ofFields,
    Cmd.nbits_ofFields, Cmd.slen_ofFields, hm]

end Sys2Proof

namespace Sys2Proof.Machine

section Latched

variable (s : State) (c : CmdRec) (h : s.latched = some c)
include h

theorem exec_randomBits_of_latched (n : Nat) (hn : n ≤ 64) :
    exec (.randomBits n) s = .next (waiting c (entropyBytes n) none s) := by
  rw [← start_of_latched s c (entropyBytes n) none h]
  exact congrArg Host.Outcome.next (if_neg (not_lt.2 hn))

theorem exec_random_of_latched : exec .random s = .next (waiting c 8 none s) := by
  rw [← start_of_latched s c 8 none h]
  rfl

theorem exec_randomString_of_latched : exec .randomString s = .next (waiting c 8 none s) := by
  rw [← start_of_latched s c 8 none h]
  rfl

end Latched

section Answer

variable (e : List Byte)

/-- RANDOM_BITS's ANSWER half: the bytes big endian, mod 2^n (42_randomness.md R180, R182). -/
theorem finishRandomBits_is (n : Nat) (he : e.length = entropyBytes n) :
    RespIs (finishRandomBits n e) 0#4 (BitVec.ofNat 64 (bigEndian e % 2 ^ n)) false [] := by
  rw [finishRandomBits, assemble_eq n e he]
  exact okNumber_is _

/-- Eight bytes fill 64 bits exactly, so none of their value is lost (42_randomness.md R180, R183). -/
theorem toNat_assemble_64 (he : e.length = 8) : (BitVec.ofNat 64 (assemble 64 e)).toNat = bigEndian e := by
  have hlt : bigEndian e < 2 ^ 64 := lt_of_lt_of_eq (bigEndian_lt e) (by simp [he])
  rw [assemble_eq 64 e he, BitVec.toNat_ofNat, Nat.mod_mod, Nat.mod_eq_of_lt hlt]

/-- The identifier of eight bytes has their value (42_randomness.md R184). -/
theorem val_encodeStr_assemble_64 (he : e.length = 8) :
    val (encodeStr (BitVec.ofNat 64 (assemble 64 e))) = bigEndian e := by
  rw [val_encodeStr, toNat_assemble_64 e he]

end Answer

/-- Settles O49: the ISSUE half of RANDOM_BITS raises RANGE_ERROR above 64. -/
theorem randomBitsAbove64IsARangeError : Obligations.RandomBitsAbove64IsARangeError :=
  fun s n hn => ⟨_, exec_randomBits_above_64 n s hn, errorResp_is _⟩

/-- Settles O48: above 64 it is O49; else the wait for (n + 7) div 8 bytes ends with RANDOM_BITS's ANSWER half. -/
theorem randomBitsCompletesWithTheMaskedBytes : Obligations.RandomBitsCompletesWithTheMaskedBytes :=
  ⟨decode_nbitsWord, fun s c rest n h hd hw => ⟨randomBitsAbove64IsARangeError s n, fun hn =>
    ⟨exec_randomBits_of_latched s c h n hn,
      fun e he => ⟨_, step_waiting_bytes s c _ none rest hw (.randomBits n) e _ hd he rfl, finishRandomBits_is e n he⟩,
      _, step_waiting_unavailable s c _ none rest hw, errorResp_is _⟩⟩⟩

/-- Settles O51: the wait for 8 bytes ends with RANDOM's ANSWER half, whose result is `toNat_assemble_64`. -/
theorem randomCompletesWithTheEightBytes : Obligations.RandomCompletesWithTheEightBytes :=
  ⟨by decide, fun s c rest e h hd hw he => ⟨exec_random_of_latched s c h,
    ⟨_, _, step_waiting_bytes s c 8 none rest hw .random e _ hd he rfl, okNumber_is _, toNat_assemble_64 e he⟩,
    _, step_waiting_unavailable s c 8 none rest hw, errorResp_is _⟩⟩

/-- Settles O52: as O51, with the identifier of the eight bytes in place of their value. -/
theorem randomStringCompletesWithTheIdentifier : Obligations.RandomStringCompletesWithTheIdentifier :=
  ⟨by decide, fun s c rest e h hd hw he => ⟨exec_randomString_of_latched s c h,
    ⟨_, _, step_waiting_bytes s c 8 none rest hw .randomString e _ hd he rfl, okString_is _ (by simp),
      encodeStr_length _, alphaValid_encodeStr _, val_encodeStr_assemble_64 e he⟩,
    _, step_waiting_unavailable s c 8 none rest hw, errorResp_is _⟩⟩

end Sys2Proof.Machine
end

section
/-! PROOFS. 60_exceptions.md: one status is reported, by priority (O27). -/

namespace Sys2Proof.Machine

/-- Below EPOCH_MS the build alone decides whether a time packs (41_bitpacker.md R143). -/
theorem packcore_of_below_epoch (build : PackUnderflow) (t r : U64) (ht : t.toNat < Config.epochMs) :
    packcore build t r = if build = .wrap then some (BitVec.ofNat 64 (payloadOf t.toNat r.toNat)) else none := by
  rw [packcore_eq]
  exact if_congr (or_iff_right ht.not_ge) rfl rfl

/-- A response that is OK where the packing succeeds and TIME_UNDERFLOW where it does not, for a time below EPOCH_MS: OK
in a WRAP build and TIME_UNDERFLOW in an ERROR build (41_bitpacker.md R143). -/
theorem resp_packcore_of_below_epoch (f : Option U64 → Resp) (hsome : ∀ p, (f (some p)).status = Status.ok)
    (hnone : f none = errorResp Status.timeUnderflow) (t r : U64) (ht : t.toNat < Config.epochMs) :
    if Config.packUnderflow = .wrap then (f (packcore Config.packUnderflow t r)).status = 0#4
    else RespIs (f (packcore Config.packUnderflow t r)) 3#4 0#64 false [] := by
  rw [packcore_of_below_epoch _ t r ht]
  split_ifs
  · exact hsome _
  · exact hnone ▸ errorResp_is _

/-- A command that takes a clock sample stores it with its request for 3 bytes (41_bitpacker.md R145, R146). -/
theorem exec_of_entropyClock (s : State) (c : CmdRec) (h : s.latched = some c) (i : Instr)
    (hi : classOf i = .entropyClock) : exec i s = .next (waiting c 3 (some s.clock) s) := by
  cases i with
  | xid => exact exec_xid_of_latched s c h
  | xidString => exact exec_xidString_of_latched s c h
  | _ => cases hi

/-- With its bytes and a sample below EPOCH_MS, a command that takes a clock sample ends with OK in a WRAP build and
with TIME_UNDERFLOW in an ERROR build (41_bitpacker.md R143, R145, R146). -/
theorem finishInstr_of_below_epoch (i : Instr) (hi : classOf i = .entropyClock) (t : U64)
    (ht : t.toNat < Config.epochMs) (e : List Byte) : ∃ x, finishInstr i (some t) e = some x
      ∧ if Config.packUnderflow = .wrap then x.status = 0#4 else RespIs x 3#4 0#64 false [] := by
  cases i with
  | xid => exact ⟨_, rfl, resp_packcore_of_below_epoch packResp (fun _ => rfl) rfl t _ ht⟩
  | xidString => exact ⟨_, rfl, resp_packcore_of_below_epoch packStringResp (fun _ => rfl) rfl t _ ht⟩
  | _ => cases hi

/-- Settles O27: the first two causes end the command in its ISSUE step; the clock sample is looked at only once the
bytes are there, so UNAVAILABLE comes before TIME_UNDERFLOW. -/
theorem errorsAreReportedByPriority : Obligations.ErrorsAreReportedByPriority := by
  intro s c clock rest hin hp hw
  have hexec := step_issue_of_decode s c clock rest hin hp
  refine ⟨fun hl => ⟨_, step_issue_of_illegal s c clock rest hin hp hl, errorResp_is _, hp, rfl, rfl⟩,
    fun n hd hn => ⟨_, (hexec _ hd).trans (exec_randomBits_above_64 n _ hn), errorResp_is _, hp, rfl, rfl⟩,
    fun hx ht => ?_⟩
  obtain ⟨i, hd, hi⟩ : ∃ i, decode c.cmd = .ok i ∧ classOf i = .entropyClock :=
    hx.elim (fun hd => ⟨_, hd, rfl⟩) fun hd => ⟨_, hd, rfl⟩
  refine ⟨_, (hexec i hd).trans (exec_of_entropyClock _ c rfl i hi), rfl, rfl,
    ⟨_, step_waiting_unavailable _ c 3 _ rest hw, errorResp_is _⟩, fun e he => ?_⟩
  obtain ⟨x, hf, hresp⟩ := finishInstr_of_below_epoch i hi clock ht e
  exact ⟨_, step_waiting_bytes (accept c clock { s with inputs := rest }) c 3 _ rest hw i e x hd he hf, hresp⟩

end Sys2Proof.Machine
end

section
/-! PROOFS. 70_reset_and_hazards.md: how long a response lasts (O8). -/

namespace Sys2Proof.Machine

/-- In PHASE = IDLE a step other than ISSUE and RESET leaves RESP and PHASE as they are: no agent's step is to come, it is
READ, or it is the discarded answer to a withdrawn request (10_state.md R41, R42, 70_reset_and_hazards.md R231). -/
theorem step_keeps_resp_of_idle (s t : State) (hp : s.phase = .idle)
    (hin : ∀ e ∈ s.inputs, e ≠ .reset ∧ ∀ c clock, e ≠ .issue c clock) (h : step s = .next t) :
    t.resp = s.resp ∧ t.phase = .idle ∧ t.inputs = s.inputs.tail := by
  cases hs : s.inputs with
  | nil =>
    rw [step_of_no_inputs s hs] at h
    cases h
    exact ⟨rfl, hp, hs⟩
  | cons e rest =>
    obtain ⟨hreset, hissue⟩ := hin e (by simp [hs])
    rw [step_of_inputs s e rest hs] at h
    cases e with
    | issue c clock => exact absurd rfl (hissue c clock)
    | reset => exact absurd rfl hreset
    | read =>
      cases h
      exact ⟨rfl, hp, rfl⟩
    | answer req ans =>
      obtain ⟨-, rfl⟩ | ⟨p, x, -, hwait, -⟩ := answer_next_cases req ans _ t h
      · exact ⟨rfl, hp, rfl⟩
      · exact absurd (hp.symm.trans hwait) (by decide)

/-- The same over a run: the agents' steps still to come are among those of the start. -/
theorem runs_keep_resp_of_idle (n : Nat) (s t : State) (hp : s.phase = .idle)
    (hin : ∀ e ∈ s.inputs, e ≠ .reset ∧ ∀ c clock, e ≠ .issue c clock) (h : Runs n s t) :
    t.resp = s.resp ∧ t.phase = .idle := by
  induction n generalizing s with
  | zero =>
    cases (runs_zero s t).1 h
    exact ⟨rfl, hp⟩
  | succ n ih =>
    obtain ⟨u, hu, hrun⟩ := (runs_succ n s t).1 h
    obtain ⟨hresp, hphase, htail⟩ := step_keeps_resp_of_idle s u hp hin hu
    obtain ⟨hresp', hphase'⟩ := ih u hphase (fun e he => hin e (List.mem_of_mem_tail (htail ▸ he))) hrun
    exact ⟨hresp'.trans hresp, hphase'⟩

/-- Settles O8: the run by induction on its steps, the acceptance by `step_issue_of_decode`. -/
theorem aResponseLastsUntilIssueOrReset : Obligations.AResponseLastsUntilIssueOrReset :=
  ⟨fun s t n hp hin h => runs_keep_resp_of_idle n s t hp hin h,
    fun s c clock rest i hin hp hd => step_issue_of_decode s c clock rest hin hp i hd⟩

end Sys2Proof.Machine
end

section
/-! PROOFS. 30_encoding.md: the decoder and the encoder are inverse to each other (O1, O2, O3). -/

namespace Sys2Proof

/-- The commands a word can carry, by the two fields of its word (30_encoding.md R74). -/
theorem wellFormed_iff (i : Instr) : i.WellFormed ↔ slenOf i ≤ 255 ∧ nbitsOf i ≤ 127 := by
  cases i <;> simp [slenOf, nbitsOf]

/-- What a word that decodes holds: its reserved fields are 0, and the other three are those of the command
(30_encoding.md R72, R73). -/
theorem fields_of_decode_ok (w : Word) (i : Instr) (h : decode w = .ok i) :
    (Cmd.rsv0 w = 0 ∧ Cmd.rsv1 w = 0 ∧ Cmd.rsv2 w = 0)
      ∧ opcodeOf i = Cmd.op w ∧ nbitsOf i = Cmd.nbits w ∧ slenOf i = Cmd.slen w := by
  unfold decode at h
  split_ifs at h with h0 h1 h2
  refine ⟨⟨not_not.1 h0, not_not.1 h1, not_not.1 h2⟩, ?_⟩
  split at h
  case h_2 | h_3 | h_4 | h_5 =>
    rename_i hop
    obtain ⟨rfl, hn⟩ := decodeWithSlen_ok w _ i h
    exact ⟨hop.symm, hn.symm, rfl⟩
  case h_11 =>
    rename_i hop
    obtain ⟨rfl, hl⟩ := decodeWithNbits_ok w _ i h
    exact ⟨hop.symm, rfl, hl.symm⟩
  case h_14 => cases h
  all_goals
    rename_i hop
    obtain ⟨rfl, hn, hl⟩ := decodePlain_ok w _ i h
    exact ⟨hop.symm, hn.symm, hl.symm⟩

/-- A word that decodes is the encoding of its command (30_encoding.md R70, R73). -/
theorem encode_of_decode_ok (w : Word) (i : Instr) (h : decode w = .ok i) : encode i = w := by
  obtain ⟨⟨h0, h1, h2⟩, ho, hn, hl⟩ := fields_of_decode_ok w i h
  rw [encode, ho, hn, hl, Cmd.ofFields_of_fields w h0 h1 h2]

/-- A command that a word decodes to has the fields of that word, which are 8 and 7 bits long (30_encoding.md R74). -/
theorem wellFormed_of_decode_ok (w : Word) (i : Instr) (h : decode w = .ok i) : i.WellFormed := by
  obtain ⟨-, -, hn, hl⟩ := fields_of_decode_ok w i h
  rw [wellFormed_iff, hn, hl, Cmd.slen_eq, Cmd.nbits_eq]
  omega

/-- The encoding of a command of the string class decodes to it, for every SLEN of 8 bits: it is the word of that SLEN
and the command's opcode (30_encoding.md R74, R87). -/
theorem decode_encode_of_slen (l : Nat) (hl : l ≤ 255) (i : Instr)
    (hi : i ∈ [Instr.decode l, .isValidPartial l, .isValid l, .decodePartial l]) : decode (encode i) = .ok i := by
  have hb : (BitVec.ofNat 8 l).toNat = l := Nat.mod_eq_of_lt (by omega)
  have hf : opcodeOf i < 16 ∧ nbitsOf i = 0 ∧ slenOf i = l := by
    simp only [List.mem_cons, List.not_mem_nil, or_false] at hi
    rcases hi with rfl | rfl | rfl | rfl <;> simp [opcodeOf, nbitsOf, slenOf]
  obtain ⟨ho, hn, hs⟩ := hf
  rw [encode, hn, hs]
  conv_lhs => rw [← hb, ← slenWord_eq_ofFields _ _ ho]
  exact decode_slenWord _ i (by rwa [hb])

/-- The encoding of RANDOM_BITS decodes to it, for every NBITS of 7 bits (30_encoding.md R74, R87). -/
theorem decode_encode_randomBits (n : Nat) (hn : n ≤ 127) :
    decode (encode (.randomBits n)) = .ok (.randomBits n) := by
  have hb : (BitVec.ofNat 7 n).toNat = n := Nat.mod_eq_of_lt (by omega)
  have hw := nbitsWord_eq_ofFields (BitVec.ofNat 7 n)
  have hd := decode_nbitsWord (BitVec.ofNat 7 n)
  rw [hw, hb] at hd
  exact hd

/-- The encoding of a well-formed command decodes to it: by the class of the command, whose word carries SLEN, NBITS or
neither (30_encoding.md R70, R71, R72). -/
theorem decode_encode (i : Instr) (h : i.WellFormed) : decode (encode i) = .ok i := by
  cases i with
  | decode l | isValidPartial l | isValid l | decodePartial l => exact decode_encode_of_slen l h _ (by simp)
  | randomBits n => exact decode_encode_randomBits n h
  | encode | pack | xid | xidString | timepoint | timestamp | random | randomString => decide

/-- Settles O2: `decode_encode`. -/
theorem decodeOfEncodeIsTheCommand : Obligations.DecodeOfEncodeIsTheCommand := decode_encode

/-- Settles O3: the reserved fields of a word that decodes are 0, and its other fields are those of the command. -/
theorem encodeOfDecodeIsTheWord : Obligations.EncodeOfDecodeIsTheWord :=
  fun w i h => ⟨wellFormed_of_decode_ok w i h, encode_of_decode_ok w i h⟩

/-- Settles O1: the words with SLEN or NBITS by their two lemmas, the other eleven are single words. -/
theorem tableWordsDecodeToTheirCommands : Obligations.TableWordsDecodeToTheirCommands := by
  refine ⟨by decide, fun l => decode_slenWord l (.decode l.toNat) (by simp),
    fun l => decode_slenWord l (.isValidPartial l.toNat) (by simp), fun l => decode_slenWord l (.isValid l.toNat) (by simp),
    fun l => decode_slenWord l (.decodePartial l.toNat) (by simp), by decide, by decide, by decide, by decide, by decide,
    decode_nbitsWord, by decide, by decide, by decide, by decide⟩

end Sys2Proof
end

section
/-! PROOFS. The invariant: it holds after reset and every step keeps it (O19, O20). -/

namespace Sys2Proof.Machine

/-- Settles O19: no command waits, no request is withdrawn, and RESP is the record of zeros. -/
theorem resetStateMeetsTheInvariant : Obligations.ResetStateMeetsTheInvariant where
  phase_pending := by simp [State.reset]
  waiting_resp _ := rfl
  resp_ok := respOk_zero
  pending_latched := by simp [State.reset]
  pending_ok := by simp [State.reset]
  pending_issued := by simp [State.reset]
  pending_open := by simp [State.reset]
  withdrawn_issued := by simp [State.reset]
  withdrawn_once := List.nodup_nil

namespace State.Inv

variable {s : State}

/-- The invariant does not speak of the agents' steps still to come. -/
theorem withInputs (h : s.Inv) (rest : List AgentStep) : State.Inv { s with inputs := rest } := { h with }

/-- A command waits exactly where PENDING holds one (10_state.md R27, R28). -/
theorem waiting_of_pending (h : s.Inv) (p : Pending) (hp : s.pending = some p) : s.phase = .waitEntropy := by
  cases hph : s.phase with
  | waitEntropy => rfl
  | idle => simp [h.phase_pending.1 hph] at hp

/-- The number of the next request is no withdrawn one. -/
theorem nextRequest_notMem (h : s.Inv) : s.nextRequest ∉ s.withdrawn :=
  fun hm => lt_irrefl _ (h.withdrawn_issued _ hm)

/-- A state with no command in progress meets the invariant for any legal RESP, whatever it latched. -/
theorem of_idle (h : s.Inv) (t : State) (hph : t.phase = .idle) (hp : t.pending = none) (hx : RespOk t.resp)
    (hn : t.nextRequest = s.nextRequest) (hw : t.withdrawn = s.withdrawn) : t.Inv where
  phase_pending := by simp [hph, hp]
  waiting_resp := by simp [hph]
  resp_ok := hx
  pending_latched := by simp [hp]
  pending_ok := by simp [hp]
  pending_issued := by simp [hp]
  pending_open := by simp [hp]
  withdrawn_issued := by
    rw [hn, hw]
    exact h.withdrawn_issued
  withdrawn_once := hw ▸ h.withdrawn_once

/-- An accepted command that responds leaves a legal RESP and no command in progress (10_state.md R37, R38). -/
theorem respond_accept (h : s.Inv) (hph : s.phase = .idle) (c : CmdRec) (clock : U64) (x : Resp) (hx : RespOk x) :
    (respond x (accept c clock s)).Inv :=
  h.of_idle _ hph (h.phase_pending.1 hph) hx rfl rfl

/-- The end of a command leaves a legal RESP and no command in progress (10_state.md R40). -/
theorem complete (h : s.Inv) (x : Resp) (hx : RespOk x) : (Machine.complete x s).Inv :=
  h.of_idle _ rfl rfl hx rfl rfl

/-- An accepted command that starts its request waits with RESP zero, under a number that no earlier request has
(10_state.md R37, R39; 70_reset_and_hazards.md R231). -/
theorem start_accept (h : s.Inv) (c : CmdRec) (clock : U64) (i : Instr) (hd : decode c.cmd = .ok i) (k : Nat)
    (hk : requestOf i = some k) :
    (start k (if classOf i = .entropyClock then some clock else none) (accept c clock s)).Inv where
  phase_pending := by simp
  waiting_resp _ := rfl
  resp_ok := respOk_zero
  pending_latched p hp := by
    cases hp
    rfl
  pending_ok p hp := by
    cases hp
    exact ⟨i, hd, hk, by simp⟩
  pending_issued p hp := by
    cases hp
    exact Nat.lt_succ_self _
  pending_open p hp := by
    cases hp
    exact h.nextRequest_notMem
  withdrawn_issued r hr := Nat.lt_succ_of_lt (h.withdrawn_issued r hr)
  withdrawn_once := h.withdrawn_once

/-- The discarded answer to a withdrawn request leaves the other withdrawn ones (70_reset_and_hazards.md R231). -/
theorem erase_withdrawn (h : s.Inv) (req : Nat) : State.Inv { s with withdrawn := s.withdrawn.erase req } :=
  { h with
    pending_open := fun p hp hm => h.pending_open p hp (List.mem_of_mem_erase hm)
    withdrawn_issued := fun r hr => h.withdrawn_issued r (List.mem_of_mem_erase hr)
    withdrawn_once := h.withdrawn_once.erase req }

/-- RESET withdraws the request in progress, which was issued and not withdrawn before (70_reset_and_hazards.md
R230, R231). -/
theorem resetBlock (h : s.Inv) : (Machine.resetBlock s).Inv where
  phase_pending := by simp
  waiting_resp _ := rfl
  resp_ok := respOk_zero
  pending_latched := by simp
  pending_ok := by simp
  pending_issued := by simp
  pending_open := by simp
  withdrawn_issued := by
    cases hp : s.pending with
    | none =>
      rw [resetBlock_withdrawn_of_none s hp]
      exact h.withdrawn_issued
    | some p =>
      rw [resetBlock_withdrawn_of_some s p hp]
      exact List.forall_mem_cons.2 ⟨h.pending_issued p hp, h.withdrawn_issued⟩
  withdrawn_once := by
    cases hp : s.pending with
    | none =>
      rw [resetBlock_withdrawn_of_none s hp]
      exact h.withdrawn_once
    | some p =>
      rw [resetBlock_withdrawn_of_some s p hp]
      exact List.nodup_cons.2 ⟨h.pending_open p hp, h.withdrawn_once⟩

/-- ISSUE keeps the invariant: the word is illegal, the command responds, or it starts its request. -/
theorem issue (h : s.Inv) (c : CmdRec) (clock : U64) (t : State) (ht : Machine.issue c clock s = .next t) : t.Inv := by
  obtain ⟨hph, ⟨e, -, rfl⟩ | ⟨i, hd, -, ⟨x, rfl, -, hx, -⟩ | ⟨k, clk, rfl, hk, rfl⟩⟩⟩ := issue_next_cases c clock s t ht
  · exact h.respond_accept hph c clock _ (respOk_errorResp _ (by decide))
  · exact h.respond_accept hph c clock x hx
  · exact h.start_accept c clock i hd k hk

/-- ANSWER keeps the invariant: a withdrawn request's answer is dropped, or the pending command completes. -/
theorem answer (h : s.Inv) (req : Nat) (ans : Answer) (t : State) (ht : Machine.answer req ans s = .next t) :
    t.Inv := by
  obtain ⟨-, rfl⟩ | ⟨p, x, -, -, hp, -, rfl, ⟨-, rfl⟩ | ⟨e, -, -, hf⟩⟩ := answer_next_cases req ans s t ht
  · exact h.erase_withdrawn req
  · exact h.complete _ (respOk_errorResp _ (by decide))
  · obtain ⟨y, hy, -, hok⟩ := finish_of_pendingOk p (h.pending_ok p hp) e
    cases hf.symm.trans hy
    exact h.complete x hok

/-- The step of any agent keeps the invariant. -/
theorem agentStep (h : s.Inv) (e : AgentStep) (t : State) (ht : Machine.agentStep e s = .next t) : t.Inv := by
  cases e with
  | issue c clock => exact h.issue c clock t ht
  | answer req ans => exact h.answer req ans t ht
  | read =>
    cases ht
    exact { h with }
  | reset =>
    cases ht
    exact h.resetBlock

end State.Inv

/-- Settles O20: the step is that of an agent, or there is none to come. -/
theorem everyStepKeepsTheInvariant : Obligations.EveryStepKeepsTheInvariant := by
  intro s t h ht
  cases hin : s.inputs with
  | nil =>
    rw [step_of_no_inputs s hin] at ht
    cases ht
    exact h
  | cons e rest =>
    rw [step_of_inputs s e rest hin] at ht
    exact (h.withInputs rest).agentStep e t ht

end Sys2Proof.Machine
end

section
/-! PROOFS. 10_state.md and 70_reset_and_hazards.md: the steps that are enabled, and what each agent's step does to the
block (O5, O10, O11, O13, O14, O17, O21). -/

namespace Sys2Proof.Machine

/-- ISSUE while a command waits is refused (70_reset_and_hazards.md R234). -/
theorem issue_of_waiting (c : CmdRec) (clock : U64) (s : State) (h : s.phase = .waitEntropy) :
    issue c clock s = .refused .issueWhileWaiting := by
  simp [issue, h]

/-- ISSUE in PHASE = IDLE has a next state, whatever the command. -/
theorem exists_issue_of_idle (c : CmdRec) (clock : U64) (s : State) (h : s.phase = .idle) :
    ∃ t, issue c clock s = .next t :=
  exists_step_issue_of_idle { s with inputs := .issue c clock :: s.inputs } c clock s.inputs rfl h

/-- The answer to a withdrawn request is discarded (70_reset_and_hazards.md R231). -/
theorem answer_of_withdrawn (req : Nat) (ans : Answer) (s : State) (h : req ∈ s.withdrawn) :
    answer req ans s = .next { s with withdrawn := s.withdrawn.erase req } := by
  simp [answer, h]

/-- Bytes of another number than the pending command asked for are refused (10_state.md R33). -/
theorem answer_of_wrong_length (s : State) (p : Pending) (e : List Byte) (hs : s.phase = .waitEntropy)
    (hp : s.pending = some p) (hw : p.req ∉ s.withdrawn) (hl : e.length ≠ p.k) :
    answer p.req (.bytes e) s = .refused .answerOfWrongLength := by
  simp [answer, hw, hs, hp, answerPending, hl]

/-- In PHASE = IDLE no request is open but the withdrawn ones (10_state.md R40). -/
theorem answer_of_idle (req : Nat) (ans : Answer) (s : State) (hs : s.phase = .idle) (hw : req ∉ s.withdrawn) :
    answer req ans s = .refused .answerToNoOpenRequest := by
  simp [answer, hw, hs]

/-- From the invariant an enabled step is taken: a PENDING that ISSUE made has its ANSWER half (10_state.md R34). -/
theorem exists_agentStep_of_enabled (s : State) (h : s.Inv) (e : AgentStep) (he : Enabled e s) :
    ∃ t, agentStep e s = .next t := by
  cases e with
  | issue c clock => exact exists_issue_of_idle c clock s he
  | read => exact ⟨_, rfl⟩
  | reset => exact ⟨_, rfl⟩
  | answer req ans =>
    by_cases hw : req ∈ s.withdrawn
    · exact ⟨_, answer_of_withdrawn req ans s hw⟩
    · obtain ⟨hs, p, hp, rfl, hl⟩ := he.resolve_left hw
      cases ans with
      | unavailable => exact ⟨_, answer_unavailable s p hs hp hw⟩
      | bytes e =>
        obtain ⟨x, hf, -⟩ := finish_of_pendingOk p (h.pending_ok p hp) e
        exact ⟨_, answer_bytes s p e x hs hp hw (hl e rfl) hf⟩

/-- A step that is not enabled is refused, in any state (10_state.md R34, R35, R40). -/
theorem exists_agentStep_refused_of_not_enabled (s : State) (e : AgentStep) (he : ¬ Enabled e s) :
    ∃ r, agentStep e s = .refused r := by
  cases e with
  | read => exact absurd trivial he
  | reset => exact absurd trivial he
  | issue c clock =>
    cases hs : s.phase with
    | idle => exact absurd hs he
    | waitEntropy => exact ⟨_, issue_of_waiting c clock s hs⟩
  | answer req ans =>
    obtain ⟨hw, hopen⟩ := not_or.1 he
    cases hs : s.phase with
    | idle => exact ⟨_, answer_of_idle req ans s hs hw⟩
    | waitEntropy =>
      by_cases hreq : ∃ p, s.pending = some p ∧ p.req = req
      · obtain ⟨p, hp, rfl⟩ := hreq
        cases ans with
        | unavailable => exact absurd ⟨hs, p, hp, rfl, by simp⟩ hopen
        | bytes e =>
          refine ⟨_, answer_of_wrong_length s p e hs hp hw fun hl => hopen ⟨hs, p, hp, rfl, ?_⟩⟩
          rintro _ ⟨⟩
          exact hl
      · exact ⟨_, answer_of_closed req ans s hw fun p hp hr => hreq ⟨p, hp, hr⟩⟩

/-- Settles O21: an enabled step has a next state and any other is refused, so none faults. -/
theorem stepsAreTakenExactlyWhenEnabled : Obligations.StepsAreTakenExactlyWhenEnabled := by
  intro s h
  refine ⟨fun f hf => ?_, step_of_no_inputs s, fun e rest hin => ?_⟩
  · cases hin : s.inputs with
    | nil => simp [step_of_no_inputs s hin] at hf
    | cons e rest =>
      rw [step_of_inputs s e rest hin] at hf
      by_cases he : Enabled e { s with inputs := rest }
      · obtain ⟨t, ht⟩ := exists_agentStep_of_enabled _ (h.withInputs rest) e he
        simp [ht] at hf
      · obtain ⟨r, hr⟩ := exists_agentStep_refused_of_not_enabled _ e he
        simp [hr] at hf
  · rw [step_of_inputs s e rest hin]
    refine ⟨fun ⟨t, ht⟩ => by_contra fun he => ?_, fun he => exists_agentStep_of_enabled _ (h.withInputs rest) e he⟩
    obtain ⟨r, hr⟩ := exists_agentStep_refused_of_not_enabled { s with inputs := rest } e he
    simp [hr] at ht

/-- Settles O5: `step_issue_of_decode`, with `accept` written out. -/
theorem stepRunsTheDecodedCommand : Obligations.StepRunsTheDecodedCommand :=
  fun s c clock rest i hin hp hd => step_issue_of_decode s c clock rest hin hp i hd

/-- Settles O10: the step is ISSUE, in PHASE = WAIT_ENTROPY. -/
theorem issueIsRefusedWhileWaiting : Obligations.IssueIsRefusedWhileWaiting := fun s c clock rest hin hs =>
  (step_issue s c clock rest hin).trans (issue_of_waiting c clock _ hs)

/-- Settles O11: the step is `readResp`. -/
theorem readReturnsTheResponse : Obligations.ReadReturnsTheResponse :=
  fun s rest hin => step_of_inputs s .read rest hin

/-- Settles O13: the step is `resetBlock`, which writes none of these fields. -/
theorem resetLeavesTheAgentsAlone : Obligations.ResetLeavesTheAgentsAlone := fun s rest hin =>
  ⟨resetBlock { s with inputs := rest }, step_of_inputs s .reset rest hin, rfl, rfl, rfl, rfl⟩

/-- Settles O14: the step is an answer to a withdrawn request. -/
theorem lateAnswersAreDiscarded : Obligations.LateAnswersAreDiscarded := fun s req ans rest hin hw =>
  ⟨_, (step_of_inputs s (.answer req ans) rest hin).trans (answer_of_withdrawn req ans { s with inputs := rest } hw),
    ⟨rfl, rfl, rfl, rfl⟩, rfl, rfl, rfl, rfl, rfl⟩

/-- Settles O17: the step is UNAVAILABLE, which ends the pending command. -/
theorem unavailableEntropyEndsTheCommand : Obligations.UnavailableEntropyEndsTheCommand := fun s p rest hs hp hw =>
  ⟨_, answer_unavailable { s with inputs := rest } p hs hp hw, errorResp_is _⟩

end Sys2Proof.Machine
end

section
/-! PROOFS. 10_state.md and 70_reset_and_hazards.md: what no run can do: answer a request twice, complete a command by
an earlier request's answer, or end a wait by itself (O15, O16, O18). -/

namespace Sys2Proof.Machine

/-- An answer to a request that is not the pending one leaves the block as it is (70_reset_and_hazards.md R231). -/
theorem sameBlock_of_answer_not_pending (req : Nat) (ans : Answer) (s t : State)
    (hp : ∀ p, s.pending = some p → p.req ≠ req) (h : answer req ans s = .next t) : SameBlock s t := by
  obtain ⟨-, rfl⟩ | ⟨p, x, -, -, hq, hreq, -⟩ := answer_next_cases req ans s t h
  · exact ⟨rfl, rfl, rfl, rfl⟩
  · exact absurd hreq (hp p hq)

/-- Settles O15: after RESET the request is an issued one that is not pending, and so it stays over any run. -/
theorem noAnswerFromBeforeResetCompletesACommand : Obligations.NoAnswerFromBeforeResetCompletesACommand := by
  intro s t u v p n ans rest rest' h hp hin ht hrun hv
  cases (step_of_inputs s .reset rest hin).symm.trans ht
  obtain ⟨-, hclosed, -⟩ :=
    closed_of_runs n (resetBlock { s with inputs := rest }) u p.req (h.pending_issued p hp) (by simp) hrun
  exact sameBlock_of_answer_not_pending p.req ans { u with inputs := rest' } v hclosed hv

/-- Settles O16: once answered, the request is an issued one that is neither pending nor withdrawn, and so it stays over
any run. -/
theorem aRequestIsAnsweredOnce : Obligations.ARequestIsAnsweredOnce := by
  intro s t u p n ans ans' rest rest' h hp ht hrun
  have hw : p.req ∉ s.withdrawn := h.pending_open p hp
  obtain ⟨hm, -⟩ | ⟨q, x, -, -, -, -, rfl, -⟩ := answer_next_cases p.req ans { s with inputs := rest } t ht
  · exact absurd hm hw
  · obtain ⟨-, hclosed, hopen⟩ :=
      closed_of_runs n (complete x { s with inputs := rest }) u p.req (h.pending_issued p hp) (by simp) hrun
    exact answer_of_closed p.req ans' { u with inputs := rest' } (hopen hw) hclosed

/-- While a command waits, a step other than RESET and an answer to its request leaves the block as it is
(10_state.md R41). -/
theorem sameBlock_of_step_waiting (s t : State) (p : Pending) (hs : s.phase = .waitEntropy) (hp : s.pending = some p)
    (hin : ∀ e ∈ s.inputs, e ≠ .reset ∧ ∀ ans, e ≠ .answer p.req ans) (h : step s = .next t) :
    SameBlock s t ∧ t.inputs = s.inputs.tail := by
  cases hi : s.inputs with
  | nil =>
    rw [step_of_no_inputs s hi] at h
    cases h
    exact ⟨⟨rfl, rfl, rfl, rfl⟩, hi⟩
  | cons e rest =>
    obtain ⟨hreset, hanswer⟩ := hin e (by simp [hi])
    rw [step_of_inputs s e rest hi] at h
    cases e with
    | reset => exact absurd rfl hreset
    | issue c clock => cases (issue_of_waiting c clock { s with inputs := rest } hs).symm.trans h
    | read =>
      cases h
      exact ⟨⟨rfl, rfl, rfl, rfl⟩, rfl⟩
    | answer req ans =>
      obtain ⟨-, rfl⟩ | ⟨q, x, -, -, hq, rfl, -⟩ := answer_next_cases req ans _ t h
      · exact ⟨⟨rfl, rfl, rfl, rfl⟩, rfl⟩
      · cases hp.symm.trans hq
        exact absurd rfl (hanswer ans)

/-- Settles O18: by induction on the steps of the run, whose agents' steps are among those of the start. -/
theorem waitingLastsUntilAnswerOrReset : Obligations.WaitingLastsUntilAnswerOrReset := by
  intro s t p n hs hp hin hrun
  induction n generalizing s with
  | zero =>
    cases (runs_zero s t).1 hrun
    exact ⟨rfl, rfl, rfl, rfl⟩
  | succ n ih =>
    obtain ⟨u, hu, hrun⟩ := (runs_succ n s t).1 hrun
    obtain ⟨⟨hph, hpe, hla, hre⟩, htail⟩ := sameBlock_of_step_waiting s u p hs hp hin hu
    obtain ⟨hph', hpe', hla', hre'⟩ :=
      ih u (hph ▸ hs) (hpe ▸ hp) (fun e he => hin e (List.mem_of_mem_tail (htail ▸ he))) hrun
    exact ⟨hph.trans hph', hpe.trans hpe', hla.trans hla', hre.trans hre'⟩

end Sys2Proof.Machine
end

section
/-! PROOFS. 10_state.md: what a command writes, and what its response depends on (O9, O22, O23, O24, O25, O26). -/

namespace Sys2Proof.Machine

/-- The response of a pure command to the operands of its record (10_state.md R36, R38); RESP_ZERO for the others, which
respond to entropy. -/
def pureResp (i : Instr) (c : CmdRec) : Resp :=
  match i with
  | .encode => okString (encodeStr c.a)
  | .decode slen => decodedResp (decodeStr slen (c.s.toList.take slen))
  | .isValidPartial slen => okBool (isValidPartialStr slen (c.s.toList.take slen))
  | .isValid slen => okBool (isValidStr slen (c.s.toList.take slen))
  | .decodePartial slen => decodedResp (decodePartialStr slen (c.s.toList.take slen))
  | .pack => packResp (packcore Config.packUnderflow c.a c.b)
  | .timepoint => okNumber (BitVec.ofNat 64 (timepointOf c.a))
  | .timestamp => okString (iso (timepointOf c.a))
  | .xid | .xidString | .randomBits _ | .random | .randomString => Resp.zero

/-- A pure command responds to the operands of the latched command, and does nothing else. -/
theorem exec_of_pure (i : Instr) (s : State) (h : classOf i = .pure) :
    exec i s = .next (respond (pureResp i (command s)) s) := by
  cases i with
  | encode | decode | isValidPartial | isValid | decodePartial | pack | timepoint | timestamp => rfl
  | xid | xidString | randomBits | random | randomString => cases h

theorem exec_of_pure_of_latched (i : Instr) (s : State) (c : CmdRec) (h : classOf i = .pure)
    (hc : s.latched = some c) : exec i s = .next (respond (pureResp i c) s) := by
  rw [exec_of_pure i s h, command_of_latched s c hc]

theorem requestOf_of_pure (i : Instr) (h : classOf i = .pure) : requestOf i = none := by
  cases i with
  | encode | decode | isValidPartial | isValid | decodePartial | pack | timepoint | timestamp => rfl
  | xid | xidString | randomBits | random | randomString => cases h

/-- The ISSUE half of a command is the same in every state in which the same command is latched: the response it gives,
or the request it starts and whether it takes a clock sample (10_state.md R21, R32). -/
theorem exec_eq_of_command (i : Instr) (c : CmdRec) :
    (∃ x, ∀ s, command s = c → exec i s = .next (respond x s))
      ∨ ∃ k, ∀ s, exec i s = .next (start k (if classOf i = .entropyClock then some s.clock else none) s) := by
  cases i with
  | xid | xidString | random | randomString => exact .inr ⟨_, fun s => rfl⟩
  | randomBits n =>
    by_cases hn : 64 < n
    · exact .inl ⟨_, fun s _ => exec_randomBits_above_64 n s hn⟩
    · exact .inr ⟨entropyBytes n, fun s => congrArg Host.Outcome.next (if_neg hn)⟩
  | encode | decode | isValidPartial | isValid | decodePartial | pack | timepoint | timestamp =>
    exact .inl ⟨_, fun s hs => hs ▸ exec_of_pure _ s rfl⟩

/-- Settles O22: a command that makes no request responds. -/
theorem pureCommandsWriteOnlyTheResponse : Obligations.PureCommandsWriteOnlyTheResponse := by
  intro i s _ hi
  have hr := requestOf_of_pure i hi
  obtain ⟨x, hx, hv, hok, -⟩ | ⟨k, clk, -, hk, -⟩ := exec_cases i s
  · exact ⟨x, hx, hv, hok⟩
  · cases hr.symm.trans hk

/-- Settles O23: an entropy command that responds is a RANDOM_BITS above 64; any other starts its request. -/
theorem entropyCommandsWriteOnlyTheRequest : Obligations.EntropyCommandsWriteOnlyTheRequest := by
  intro i s hi
  obtain ⟨x, hx, -, -, hr⟩ | ⟨k, clk, hx, hk, hc⟩ := exec_cases i s
  · rw [hr]
    exact ⟨x, hx, (pure_or_rangeError_of_exec_respond i s x hr hx).resolve_left hi⟩
  · rw [hk]
    exact ⟨_, hx, rfl, rfl, hc, command_of_latched s⟩

/-- Settles O24: such a command responds the same whatever CLOCK shows, or starts a request without a sample. -/
theorem otherCommandsNeverReadTheClock : Obligations.OtherCommandsNeverReadTheClock := by
  intro i s t clock hi h
  obtain ⟨x, hx⟩ | ⟨k, hx⟩ := exec_eq_of_command i (command s)
  · cases (hx s rfl).symm.trans h
    exact hx { s with clock := clock } rfl
  · simp only [if_neg hi] at hx
    cases (hx s).symm.trans h
    exact hx { s with clock := clock }

/-- The entropy bytes that a command asked for, and its ANSWER half, are known from the command word and the clock
sample alone (10_state.md R21, R40). -/
theorem finish_eq_of_word (p p' : Pending) (h : PendingOk p) (h' : PendingOk p') (hc : p.cmd.cmd = p'.cmd.cmd)
    (hclk : p.clk = p'.clk) : p.k = p'.k ∧ finish p = finish p' := by
  obtain ⟨i, hd, hk, -⟩ := h
  obtain ⟨i', hd', hk', -⟩ := h'
  rw [← hc, hd] at hd'
  cases hd'
  refine ⟨Option.some.inj (hk.symm.trans hk'), ?_⟩
  funext e
  simp [finish, hd, ← hc, hclk]

/-- The ISSUE steps of one command in two states in PHASE = IDLE end alike: with ILLEGAL_COMMAND, with the same response,
or with the same request (10_state.md R21, R37). -/
theorem issue_resp_eq (c : CmdRec) (clock : U64) (s s' : State) (hs : s.phase = .idle) (hs' : s'.phase = .idle)
    (hp : s.pending = none) (hp' : s'.pending = none) :
    ∃ t t', issue c clock s = .next t ∧ issue c clock s' = .next t' ∧ t.resp = t'.resp ∧ t.phase = t'.phase
      ∧ t.latched = t'.latched
      ∧ t.pending.map (fun p => (p.cmd, p.k, p.clk)) = t'.pending.map (fun p => (p.cmd, p.k, p.clk)) := by
  rw [issue_of_idle c clock s hs, issue_of_idle c clock s' hs']
  cases decode c.cmd with
  | error e => exact ⟨_, _, rfl, rfl, rfl, hs.trans hs'.symm, rfl, by simp [hp, hp']⟩
  | ok i =>
    obtain ⟨x, hx⟩ | ⟨k, hx⟩ := exec_eq_of_command i c
    · exact ⟨_, _, hx _ rfl, hx _ rfl, rfl, hs.trans hs'.symm, rfl, by simp [hp, hp']⟩
    · exact ⟨_, _, hx _, hx _, rfl, rfl, rfl, rfl⟩

/-- The ANSWER steps of two waiting commands with one command word and one clock sample end alike (10_state.md R21, R40). -/
theorem answer_resp_eq (s s' t : State) (p p' : Pending) (ans : Answer) (h : s.Inv) (h' : s'.Inv)
    (hp : s.pending = some p) (hp' : s'.pending = some p') (hc : p.cmd.cmd = p'.cmd.cmd) (hclk : p.clk = p'.clk)
    (ht : answer p.req ans s = .next t) :
    ∃ t', answer p'.req ans s' = .next t' ∧ t.resp = t'.resp ∧ t.phase = t'.phase ∧ t.pending = t'.pending := by
  have hs' := h'.waiting_of_pending p' hp'
  have hw' := h'.pending_open p' hp'
  obtain ⟨hk, hf⟩ := finish_eq_of_word p p' (h.pending_ok p hp) (h'.pending_ok p' hp') hc hclk
  obtain ⟨hm, -⟩ | ⟨q, x, -, -, hq, -, rfl, hx⟩ := answer_next_cases p.req ans s t ht
  · exact absurd hm (h.pending_open p hp)
  · cases hp.symm.trans hq
    obtain ⟨rfl, rfl⟩ | ⟨e, rfl, hl, hfx⟩ := hx
    · exact ⟨_, answer_unavailable s' p' hs' hp' hw', rfl, rfl, rfl⟩
    · exact ⟨_, answer_bytes s' p' e x hs' hp' hw' (hl.trans hk) (hf ▸ hfx), rfl, rfl, rfl⟩

/-- Settles O25: `issue_resp_eq` and `answer_resp_eq`. -/
theorem responsesDoNotDependOnEarlierCommands : Obligations.ResponsesDoNotDependOnEarlierCommands := by
  refine ⟨fun s s' c clock rest rest' hs hs' hin hin' hp hp' => ?_,
    fun s s' t p p' ans rest rest' h h' hp hp' hc hclk ht => ?_⟩
  · rw [step_issue s c clock rest hin, step_issue s' c clock rest' hin']
    exact issue_resp_eq c clock _ _ hs hs' hp hp'
  · exact answer_resp_eq _ _ t p p' ans (h.withInputs rest) (h'.withInputs rest') hp hp' hc hclk ht

/-- Two records to which a pure command responds alike give the same step, up to the record latched. -/
theorem exec_eq_of_pureResp (i : Instr) (s : State) (c c' : CmdRec) (hi : classOf i = .pure)
    (h : pureResp i c = pureResp i c') : ∃ x,
      exec i { s with latched := some c } = .next { s with latched := some c, resp := x }
      ∧ exec i { s with latched := some c' } = .next { s with latched := some c', resp := x } := by
  refine ⟨pureResp i c, ?_, ?_⟩
  · exact exec_of_pure_of_latched i _ c hi rfl
  · rw [h]
    exact exec_of_pure_of_latched i _ c' hi rfl

/-- The bytes presented are those below SLEN (30_encoding.md R76). -/
theorem take_eq_of_bytes_below (v v' : Vector Byte 11) (n : Nat) (h : ∀ j (hj : j < 11), j < n → v[j] = v'[j]) :
    v.toList.take n = v'.toList.take n := by
  refine List.ext_getElem (by simp) fun j hj _ => ?_
  have hj' : j < n ∧ j < 11 := by simpa using hj
  simpa using h j hj'.2 hj'.1

/-- Settles O26: the responses to the two records are the same, for they read the same operands. -/
theorem unreadOperandsAreIgnored : Obligations.UnreadOperandsAreIgnored := by
  intro s c c' slen
  refine ⟨fun ha i hi => ?_, fun ha hb => ?_, fun hstr i hi => ?_⟩
  · simp only [List.mem_cons, List.not_mem_nil, or_false] at hi
    rcases hi with rfl | rfl | rfl <;> exact exec_eq_of_pureResp _ s c c' rfl (by simp [pureResp, ha])
  · exact exec_eq_of_pureResp _ s c c' rfl (by simp [pureResp, ha, hb])
  · have htake := take_eq_of_bytes_below c.s c'.s slen hstr
    simp only [List.mem_cons, List.not_mem_nil, or_false] at hi
    rcases hi with rfl | rfl | rfl | rfl <;> exact exec_eq_of_pureResp _ s c c' rfl (by simp [pureResp, htake])

theorem packResp_v (o : Option U64) : (packResp o).v = false := by
  cases o <;> rfl

theorem packStringResp_v (o : Option U64) : (packStringResp o).v = false := by
  cases o <;> rfl

theorem decodedResp_status (o : Option Nat) : (decodedResp o).status = 0#4 := by
  cases o <;> rfl

/-- A pure command that responds V = 1 is one of the four validation functions, and its status is OK (10_state.md R30;
30_encoding.md R78). -/
theorem validation_of_pureResp_v (i : Instr) (c : CmdRec) (h : (pureResp i c).v = true) :
    (pureResp i c).status = 0#4
      ∧ ∃ slen, i ∈ [Instr.decode slen, .decodePartial slen, .isValid slen, .isValidPartial slen] := by
  cases i with
  | decode slen | decodePartial slen => exact ⟨decodedResp_status _, slen, by simp⟩
  | isValid slen | isValidPartial slen => exact ⟨rfl, slen, by simp⟩
  | pack => exact absurd h (by simp [pureResp, packResp_v])
  | encode | timepoint | timestamp | xid | xidString | randomBits | random | randomString => cases h

/-- No ANSWER half responds V = 1 (10_state.md R30). -/
theorem finishInstr_v (i : Instr) (clk : Option U64) (e : List Byte) (x : Resp) (h : finishInstr i clk e = some x) :
    x.v = false := by
  cases i <;> cases clk <;> cases h
  case xid => exact packResp_v _
  case xidString => exact packStringResp_v _
  all_goals rfl

theorem finish_v (p : Pending) (e : List Byte) (x : Resp) (h : finish p e = some x) : x.v = false := by
  unfold finish at h
  split at h
  · exact finishInstr_v _ _ e x h
  · cases h

/-- An answer leaves RESP as it is or responds V = 0 (10_state.md R30, R40). -/
theorem answer_v (req : Nat) (ans : Answer) (s t : State) (h : answer req ans s = .next t) :
    t.resp = s.resp ∨ t.resp.v = false := by
  obtain ⟨-, rfl⟩ | ⟨p, x, -, -, -, -, rfl, ⟨-, rfl⟩ | ⟨e, -, -, hf⟩⟩ := answer_next_cases req ans s t h
  · exact .inl rfl
  · exact .inr rfl
  · exact .inr (finish_v p e x hf)

/-- A command that responds V = 1 in its ISSUE step is one of the four validation functions (10_state.md R30). -/
theorem validation_of_issue_v (c : CmdRec) (clock : U64) (s t : State) (h : issue c clock s = .next t)
    (hv : t.resp.v = true) : t.resp.status = 0#4 ∧ t.resp.valid = true ∧ ∃ i slen, decode c.cmd = .ok i
      ∧ i ∈ [Instr.decode slen, .decodePartial slen, .isValid slen, .isValidPartial slen] := by
  obtain ⟨-, ⟨e, -, rfl⟩ | ⟨i, hd, hexec, ⟨x, rfl, hvalid, -, hr⟩ | ⟨k, clk, rfl, -⟩⟩⟩ := issue_next_cases c clock s t h
  · cases hv
  · obtain hi | ⟨n, rfl, hn⟩ := classOf_pure_or_randomBits_of_requestOf_none i hr
    · rw [exec_of_pure i _ hi, command_accept] at hexec
      have hx : pureResp i c = x := congrArg State.resp (Host.Outcome.next.inj hexec)
      subst hx
      obtain ⟨hst, slen, hmem⟩ := validation_of_pureResp_v i c hv
      exact ⟨hst, hvalid, i, slen, hd, hmem⟩
    · rw [exec_randomBits_above_64 n _ hn] at hexec
      have hx : errorResp Status.rangeError = x := congrArg State.resp (Host.Outcome.next.inj hexec)
      subst hx
      cases hv
  · cases hv

/-- Settles O9: RESET and READ write no V = 1, and for ANSWER and ISSUE it is `answer_v` and `validation_of_issue_v`. -/
theorem onlyValidationCommandsSetV : Obligations.OnlyValidationCommandsSetV := by
  intro s t h hv
  cases hin : s.inputs with
  | nil =>
    rw [step_of_no_inputs s hin] at h
    cases h
    exact .inl rfl
  | cons e rest =>
    rw [step_of_inputs s e rest hin] at h
    cases e with
    | read =>
      cases h
      exact .inl rfl
    | reset =>
      cases h
      cases hv
    | answer req ans =>
      exact (answer_v req ans { s with inputs := rest } t h).imp_right fun hv' => absurd (hv.symm.trans hv') (by decide)
    | issue c clock =>
      obtain ⟨hst, hvalid, i, slen, hd, hi⟩ := validation_of_issue_v c clock { s with inputs := rest } t h hv
      refine .inr ⟨c, clock, rest, slen, rfl, hst, hvalid, ?_⟩
      simpa [hd] using hi

end Sys2Proof.Machine
end

section
/-! PROOFS. The alphabet and its order (O28, O39), and the accumulation (O30). -/

namespace Sys2Proof.Machine

/-- ALPHA ascends in byte order (10_state.md R22). -/
theorem alpha_lt_alpha (d e : Nat) (hde : d < e) (he : e < 58) : alpha d < alpha e := by
  have hasc : alphaTable.Pairwise (· < ·) := by decide
  have hlen : alphaTable.length = 58 := rfl
  have hget : ∀ d, ∀ hd : d < alphaTable.length, alpha d = alphaTable[d] := fun d hd => List.getD_eq_getElem _ _ hd
  rw [hget d (by omega), hget e (by omega)]
  exact List.pairwise_iff_getElem.1 hasc d e _ _ hde

/-- Settles O28: the two directions of the table lookup, and `alpha_lt_alpha`. -/
theorem revInvertsAlpha : Obligations.RevInvertsAlpha :=
  ⟨fun b d => ⟨alpha_of_rev b d, fun ⟨hd, hb⟩ => hb ▸ rev_alpha d hd⟩, alpha_lt_alpha⟩

/-- The digits of two alphabet bytes are ordered as the bytes are (30_encoding.md R80). -/
theorem lt_iff_rev_lt (b b' : Byte) (d d' : Nat) (h : rev b = some d) (h' : rev b' = some d') : b < b' ↔ d < d' := by
  obtain ⟨hd, rfl⟩ := alpha_of_rev b d h
  obtain ⟨hd', rfl⟩ := alpha_of_rev b' d' h'
  refine ⟨fun hlt => ?_, fun hlt => alpha_lt_alpha d d' hlt hd'⟩
  by_contra hge
  obtain heq | hgt := (not_lt.1 hge).eq_or_lt
  · exact absurd hlt (heq ▸ BitVec.lt_irrefl _)
  · exact BitVec.lt_asymm hlt (alpha_lt_alpha d' d hgt hd)

theorem alphaValid_cons_iff (b : Byte) (str : List Byte) :
    alphaValid (b :: str) = true ↔ (∃ d, rev b = some d) ∧ alphaValid str = true := by
  simp [alphaValid, inAlpha_iff]

/-- A leading digit outweighs all that follows it: numbers `d * P + v` with `v < P` are ordered by `d`, then by `v`. -/
theorem mul_add_lt_mul_add_iff (P d d' v v' : Nat) (hv : v < P) (hv' : v' < P) :
    d * P + v < d' * P + v' ↔ d < d' ∨ (d = d' ∧ v < v') := by
  obtain hlt | rfl | hgt := lt_trichotomy d d'
  · have : (d + 1) * P ≤ d' * P := Nat.mul_le_mul_right _ hlt
    have : (d + 1) * P = d * P + P := Nat.succ_mul d P
    omega
  · omega
  · have : (d' + 1) * P ≤ d * P := Nat.mul_le_mul_right _ hgt
    have : (d' + 1) * P = d' * P + P := Nat.succ_mul d' P
    omega

/-- Settles O39: by induction on the strings; the first bytes decide where they differ, for the value of the rest is less
than the weight of the first digit. -/
theorem stringOrderIsNumericOrder : Obligations.StringOrderIsNumericOrder := by
  intro str
  induction str with
  | nil =>
    intro str' hl _ _
    rw [List.length_eq_zero_iff.1 hl.symm]
    simp
  | cons b str ih =>
    intro str' hl hA hA'
    obtain _ | ⟨b', str'⟩ := str'
    · cases hl
    have hlen : str.length = str'.length := Nat.succ.inj hl
    obtain ⟨⟨d, hd⟩, hA⟩ := (alphaValid_cons_iff b str).1 hA
    obtain ⟨⟨d', hd'⟩, hA'⟩ := (alphaValid_cons_iff b' str').1 hA'
    have heq : b = b' ↔ d = d' := by
      refine ⟨fun h => ?_, fun h => ?_⟩
      · subst h
        exact Option.some.inj (hd.symm.trans hd')
      · rw [← (alpha_of_rev b d hd).2, ← (alpha_of_rev b' d' hd').2, h]
    rw [val_cons, val_cons, hd, hd', Option.getD_some, Option.getD_some, ← hlen,
      mul_add_lt_mul_add_iff _ _ _ _ _ (val_lt str) (hlen ▸ val_lt str'), ← ih str' hlen hA hA',
      ← lt_iff_rev_lt b b' d d' hd hd', ← heq]
    exact List.cons_lt_cons_iff

/-- Settles O30: `acc_eq`, and a string of up to 10 characters is below 58^10, which fits 64 bits. -/
theorem accumulationIsTheGuardedValue : Obligations.AccumulationIsTheGuardedValue := by
  refine fun str _ => ⟨acc_eq str, fun hl hA => ?_⟩
  have hlt : val str < 58 ^ 10 := (val_lt str).trans_le (Nat.pow_le_pow_right (by decide) hl)
  exact ⟨Nat.le_sub_one_of_lt hlt, (acc_eq str).trans (if_pos ⟨hA, by simp only [maxU64]; omega⟩)⟩

end Sys2Proof.Machine
end

section
/-! PROOFS. 40_codec.md: what ENCODE and DECODE_PARTIAL respond, and the strings that all four string commands reject
(O29, O34, O35). -/

namespace Sys2Proof.Machine

/-- The string of an OK response is the string put in, for the 11 characters of ENCODE. -/
theorem outStr_okString_encodeStr (x : U64) : outStr (okString (encodeStr x)) = encodeStr x :=
  outStr_of_respIs _ _ _ _ _ (okString_is _ (by simp))

/-- The character at index j of ENCODE's string is that of the digit of weight 58^(10 - j) (40_codec.md R101). -/
theorem encodeStr_getElem? (x : U64) (j : Nat) (hj : j ≤ 10) :
    (encodeStr x)[j]? = some (alpha (x.toNat / 58 ^ (10 - j) % 58)) := by
  rw [encodeStr, List.getElem?_map, digits_getElem? _ _ _ j (by simp only [Config.len]; omega)]
  rfl

/-- Settles O29: ENCODE responds with `encodeStr` of A, whose length, characters and value are known. -/
theorem encodeWritesTheIdentifier : Obligations.EncodeWritesTheIdentifier := by
  refine ⟨by decide, fun s c h => ⟨_, _, exec_of_pure_of_latched .encode s c rfl h, okString_is _ (by simp),
    encodeStr_length _, alphaValid_encodeStr _, val_encodeStr _, encodeStr_getElem? c.a⟩, fun q hq s c h ha => ?_⟩
  refine ⟨_, exec_of_pure_of_latched .encode s c rfl h, ?_⟩
  have hexamples : ∀ q ∈ [(0#64, "11111111111"), (0xFFFFFFFFFFFFFFFF#64, "jpXCZedGfVQ"), (57#64, "1111111111z"),
      (58#64, "11111111121"), (0x0123456789ABCDEF#64, "1C3CPq7c8PY")], encodeStr q.1 = ascii q.2 := by decide
  rw [pureResp, outStr_okString_encodeStr, ha]
  exact hexamples q hq

/-- DECODE_PARTIAL's result by the value of the presented bytes; the product alone is tested, for it is not below the
accumulation (40_codec.md R107, R108). -/
theorem decodePartialStr_eq (slen : Nat) (str : List Byte) : decodePartialStr slen str
    = if slen ≤ 11 ∧ alphaValid str = true ∧ val str * 58 ^ (11 - slen) ≤ 2 ^ 64 - 1
      then some (val str * 58 ^ (11 - slen)) else none := by
  have hle : val str ≤ val str * 58 ^ (11 - slen) := Nat.le_mul_of_pos_right _ (Nat.pow_pos (by decide))
  have hiff : isValidPartialStr slen str = true ↔ slen ≤ 11 ∧ alphaValid str = true := by simp [isValidPartialStr]
  by_cases hA : isValidPartialStr slen str = true
  · obtain ⟨hl, ha⟩ := hiff.1 hA
    rw [decodePartialStr, if_pos hA, acc_eq]
    by_cases hw : val str * 58 ^ (11 - slen) ≤ maxU64
    · rw [if_pos ⟨ha, hle.trans hw⟩, if_pos ⟨hl, ha, hw⟩]
      exact if_neg (not_lt.2 hw)
    · have hrange : ¬ (slen ≤ 11 ∧ alphaValid str = true ∧ val str * 58 ^ (11 - slen) ≤ 2 ^ 64 - 1) :=
        fun ⟨_, _, h⟩ => hw h
      rw [if_neg hrange]
      split_ifs
      · exact if_pos (not_le.1 hw)
      · rfl
  · rw [decodePartialStr, if_neg hA, if_neg fun h => hA (hiff.2 ⟨h.1, h.2.1⟩)]

/-- Settles O34: the result is `decodePartialStr_eq`, and its two cases are the two responses. -/
theorem decodePartialLeftJustifies : Obligations.DecodePartialLeftJustifies := by
  refine ⟨fun l => decode_slenWord l (.decodePartial l.toNat) (by simp), fun s c slen h => ?_⟩
  refine ⟨_, exec_of_pure_of_latched (.decodePartial slen) s c rfl h, ?_⟩
  rw [pureResp, decodePartialStr_eq]
  split_ifs
  · exact okDecoded_is _
  · exact okInvalid_is

/-- A string that IS_VALID_PARTIAL rejects is rejected by the other three (40_codec.md R112). -/
theorem rejected_of_not_isValidPartialStr (slen : Nat) (str : List Byte) (h : isValidPartialStr slen str = false) :
    decodeStr slen str = none ∧ isValidStr slen str = false ∧ decodePartialStr slen str = none := by
  have hA : slen = 11 → alphaValid str = false := by
    rintro rfl
    simpa [isValidPartialStr] using h
  refine ⟨?_, ?_, by simp [decodePartialStr, h]⟩
  · by_cases hl : slen = 11
    · simp [decodeStr, acc_eq, hA hl]
    · simp [decodeStr, hl]
  · by_cases hl : slen = 11
    · simp [isValidStr, hA hl]
    · simp [isValidStr, hl]

/-- Settles O35: IS_VALID_PARTIAL rejects the string, so the other three do. -/
theorem badStringsAreRejectedByAllFour : Obligations.BadStringsAreRejectedByAllFour := by
  intro s c slen h hbad i hi
  have hp : isValidPartialStr slen (c.s.toList.take slen) = false := by
    rw [Bool.eq_false_iff, ne_eq, isValidPartialStr_take_iff]
    rintro ⟨hl, hall⟩
    obtain hgt | ⟨j, hj, hjl, hnone⟩ := hbad
    · omega
    · simpa [hnone] using hall j hj hjl
  obtain ⟨hd, hv, hdp⟩ := rejected_of_not_isValidPartialStr slen _ hp
  simp only [List.mem_cons, List.not_mem_nil, or_false] at hi
  rcases hi with rfl | rfl | rfl | rfl <;> refine ⟨_, exec_of_pure_of_latched _ s c rfl h, ?_⟩
  · rw [pureResp, hd]
    exact okInvalid_is
  · rw [pureResp, hv]
    exact okBool_is false
  · rw [pureResp, hp]
    exact okBool_is false
  · rw [pureResp, hdp]
    exact okInvalid_is

end Sys2Proof.Machine
end

section
/-! PROOFS. 40_codec.md, the laws of the codec: how ENCODE, DECODE, IS_VALID and DECODE_PARTIAL fit together
(O36, O37, O38). -/

namespace Sys2Proof.Machine

/-- What V and R of a DECODE of 11 characters say about them (40_codec.md R103). -/
theorem decode_resp_iff (s t : State) (c : CmdRec) (hc : s.latched = some c) (h : exec (.decode 11) s = .next t) :
    (t.resp.v = true ↔ alphaValid c.s.toList = true ∧ val c.s.toList ≤ 2 ^ 64 - 1)
      ∧ (t.resp.v = true → t.resp.r.toNat = val c.s.toList) := by
  obtain ⟨x, hx, hif⟩ := decodeGivesTheValueOrInvalid.2 s c 11 hc
  cases hx.symm.trans h
  split_ifs at hif with hok
  · obtain ⟨-, -, hr, hv, -⟩ := hif
    refine ⟨iff_of_true hv hok.2, fun _ => ?_⟩
    rw [hr, BitVec.toNat_ofNat]
    omega
  · obtain ⟨-, -, -, hv, -⟩ := hif
    refine ⟨iff_of_false (by simp [hv]) fun h => hok ⟨rfl, h⟩, fun h => ?_⟩
    cases hv.symm.trans h

/-- The string operand of a record of 11 characters is those characters (30_encoding.md R85). -/
theorem stringRec_toList (w : Word) (str : List Byte) (h : str.length = 11) : (stringRec w str).s.toList = str := by
  show (str ++ List.replicate 11 0).take 11 = str
  rw [← h, List.take_left]

/-- DECODE of ENCODE's characters gives the number back (40_codec.md R109). -/
theorem decodeStr_encodeStr (x : U64) : decodeStr 11 (encodeStr x) = some x.toNat := by
  have hfit : val (encodeStr x) ≤ maxU64 := by
    rw [val_encodeStr]
    exact Nat.le_of_lt_succ x.isLt
  rw [decodeStr, if_neg (not_not.2 rfl), acc_eq, if_pos ⟨alphaValid_encodeStr x, hfit⟩, val_encodeStr]

/-- ENCODE of the value of 11 alphabet characters gives them back, where the value fits 64 bits (40_codec.md R109). -/
theorem encodeStr_of_val (x : U64) (str : List Byte) (hl : str.length = 11) (hA : alphaValid str = true)
    (hx : x.toNat = val str) : encodeStr x = str := by
  have h := digits_val str hA
  rwa [hl, ← hx] at h

/-- Settles O36: `decodeStr_encodeStr` and `encodeStr_of_val`. -/
theorem encodeAndDecodeAreInverse : Obligations.EncodeAndDecodeAreInverse := by
  refine ⟨fun s c hc => ⟨_, exec_of_pure_of_latched .encode s c rfl hc, ?_, fun s' w => ?_⟩,
    fun s t c hc h hv s' c' hc' ha => ⟨_, exec_of_pure_of_latched .encode s' c' rfl hc', ?_⟩⟩
  · show BitVec.ofNat 5 (encodeStr c.a).length = 11#5
    rw [encodeStr_length]
  · refine ⟨_, exec_of_pure_of_latched (.decode 11) _ _ rfl rfl, ?_⟩
    rw [respond_resp, respond_resp, pureResp, pureResp, outStr_okString_encodeStr,
      stringRec_toList w _ (encodeStr_length _), List.take_of_length_le (by simp), decodeStr_encodeStr]
    exact ⟨rfl, by simp [decodedResp, okDecoded, respOf]⟩
  · obtain ⟨hiff, hr⟩ := decode_resp_iff s t c hc h
    rw [respond_resp, pureResp, outStr_okString_encodeStr]
    exact encodeStr_of_val c'.a _ (by simp) (hiff.1 hv).1 (ha ▸ hr hv)

/-- The value of a string is that of its beginning, with a digit 0 for each character after it, and the value of the
rest. -/
theorem val_eq_take_add_drop (str : List Byte) (k : Nat) :
    val str = val (str.take k) * 58 ^ (str.length - k) + val (str.drop k) := by
  conv_lhs => rw [← List.take_append_drop k str, val_append, List.length_drop]

/-- The left-justified value of a beginning is the value of the string with its low digits cleared (40_codec.md R110). -/
theorem val_take_mul_eq (str : List Byte) (k : Nat) :
    val (str.take k) * 58 ^ (str.length - k) = val str - val str % 58 ^ (str.length - k) := by
  have hlt : val (str.drop k) < 58 ^ (str.length - k) := (val_lt _).trans_eq (by rw [List.length_drop])
  rw [val_eq_take_add_drop str k, Nat.mul_add_mod_self_right, Nat.mod_eq_of_lt hlt, Nat.add_sub_cancel]

theorem alphaValid_take (str : List Byte) (k : Nat) (h : alphaValid str = true) : alphaValid (str.take k) = true := by
  rw [alphaValid, List.all_eq_true] at h ⊢
  exact fun b hb => h b (List.mem_of_mem_take hb)

/-- Settles O37: the left-justified value is not above the value of the whole string, so it is given. -/
theorem partialDecodeIsTheLeastWithThatBeginning : Obligations.PartialDecodeIsTheLeastWithThatBeginning := by
  intro s t c k hc hk h hv
  obtain ⟨hiff, hr⟩ := decode_resp_iff s t c hc h
  obtain ⟨hA, hle⟩ := hiff.1 hv
  have hval := val_take_mul_eq c.s.toList k
  rw [Vector.length_toList] at hval
  have hfit : val (c.s.toList.take k) * 58 ^ (11 - k) ≤ 2 ^ 64 - 1 := hval ▸ (Nat.sub_le _ _).trans hle
  obtain ⟨x, hx, hif⟩ := decodePartialLeftJustifies.2 s c k hc
  rw [if_pos ⟨hk, alphaValid_take _ k hA, hfit⟩] at hif
  obtain ⟨-, -, hxr, hxv, -⟩ := hif
  refine ⟨_, hx, hxv, ?_⟩
  show x.r.toNat = _
  rw [hxr, hr hv, ← hval, BitVec.toNat_ofNat]
  exact Nat.mod_eq_of_lt (by omega)

/-- IS_VALID of 11 characters asks for the alphabet alone (40_codec.md R106). -/
theorem isValid_resp_iff (s t : State) (c : CmdRec) (hc : s.latched = some c) (h : exec (.isValid 11) s = .next t) :
    t.resp.v = true ↔ alphaValid c.s.toList = true := by
  cases (exec_of_pure_of_latched (.isValid 11) s c rfl hc).symm.trans h
  show isValidStr 11 (c.s.toList.take 11) = true ↔ _
  rw [List.take_of_length_le (by simp)]
  simp [isValidStr]

/-- A character above `j` has a digit of at least 43 (10_state.md R22). -/
theorem rev_of_above_j (b : Byte) (d : Nat) (h : rev b = some d) (hb : 0x6A#8 < b) : 43 ≤ d :=
  (lt_iff_rev_lt 0x6A#8 b 42 d (by decide) h).1 hb

/-- 11 characters that begin with a digit of at least 43 have a value above 64 bits (40_codec.md R111). -/
theorem val_of_first_above_j (v : Vector Byte 11) (hA : alphaValid v.toList = true) (hb : 0x6A#8 < v[0]) :
    2 ^ 64 - 1 < val v.toList := by
  obtain ⟨b, str, hcons⟩ := List.exists_cons_of_length_pos (l := v.toList) (by simp)
  have hfirst : v[0] = b := by
    rw [← Vector.getElem_toList (by simp)]
    simp [hcons]
  have hlen : str.length = 10 := Nat.succ.inj ((congrArg List.length hcons).symm.trans (by simp))
  rw [hcons] at hA ⊢
  obtain ⟨⟨d, hd⟩, -⟩ := (alphaValid_cons_iff b str).1 hA
  have h43 := rev_of_above_j b d hd (hfirst ▸ hb)
  rw [val_cons, hd, Option.getD_some, hlen]
  omega

/-- Settles O38: IS_VALID asks for the alphabet, DECODE also for the range. -/
theorem validStringsAboveRangeDoNotDecode : Obligations.ValidStringsAboveRangeDoNotDecode := by
  refine fun s c hc => ⟨⟨?_, fun ⟨hA, hgt⟩ => ?_⟩, val_of_first_above_j c.s⟩
  · rintro ⟨t, u, ht, htv, hu, huv⟩
    have hA := (isValid_resp_iff s t c hc ht).1 htv
    have hrej := mt (decode_resp_iff s u c hc hu).1.2 (by simp [huv])
    exact ⟨hA, not_le.1 fun hle => hrej ⟨hA, hle⟩⟩
  · have ht := exec_of_pure_of_latched (.isValid 11) s c rfl hc
    have hu := exec_of_pure_of_latched (.decode 11) s c rfl hc
    refine ⟨_, _, ht, (isValid_resp_iff s _ c hc ht).2 hA, hu, ?_⟩
    exact Bool.eq_false_iff.2 fun hv => absurd ((decode_resp_iff s _ c hc hu).1.1 hv).2 (not_le.2 hgt)

end Sys2Proof.Machine
end

section
/-! PROOFS. 41_bitpacker.md: the fields of a payload (O41, O47). -/

namespace Sys2Proof.Machine

/-- Settles O41: `packcore_eq` gives the payload, whose two fields are side by side. -/
theorem packedFieldsDoNotOverlap : Obligations.PackedFieldsDoNotOverlap := by
  intro build t r
  rw [packcore_eq]
  refine ⟨?_, fun p hp => ?_⟩
  · cases build with
    | error => simp
    | wrap => simp
  · obtain ⟨-, hp⟩ := Option.ite_none_right_eq_some.1 hp
    cases hp
    have ht := t.isLt
    rw [BitVec.toNat_ofNat, Nat.mod_eq_of_lt (payloadOf_lt _ _), payloadOf]
    refine ⟨by omega, by omega, fun hle => ?_⟩
    simp only [timeSinceEpoch, Config.epochMs] at hle ⊢
    omega

/-- PACK answers OK exactly with the payload of its operands (41_bitpacker.md R142, R143). -/
theorem toNat_pack_resp (s t : State) (c : CmdRec) (hc : s.latched = some c) (h : exec .pack s = .next t)
    (hst : t.resp.status = 0#4) : t.resp.r.toNat = payloadOf c.a.toNat c.b.toNat := by
  obtain ⟨x, hx, hif⟩ := packWritesThePayload.2 s c hc
  cases hx.symm.trans h
  split_ifs at hif with hpacks
  · obtain ⟨-, -, hr, -⟩ := hif
    rw [hr, BitVec.toNat_ofNat, Nat.mod_eq_of_lt (payloadOf_lt _ _)]
  · obtain ⟨-, hst', -⟩ := hif
    cases hst'.symm.trans hst

/-- Settles O47: TIMEPOINT adds EPOCH_MS to the time field of the payload, which is the whole difference up to
2^44 - 1. -/
theorem timepointInvertsPack : Obligations.TimepointInvertsPack := by
  intro s t c hc h hst s' c' hc' ha
  refine ⟨_, exec_timepoint_of_latched s' c' hc', ?_⟩
  have hr : (BitVec.ofNat 64 (timepointOf c'.a)).toNat = 1321009871111 + timeSinceEpoch c.a.toNat % 2 ^ 44 := by
    rw [toNat_timepoint, ha, toNat_pack_resp s t c hc h hst, payloadOf]
    omega
  refine ⟨hr, fun hle => ?_⟩
  have hc64 := c.a.isLt
  show BitVec.ofNat 64 (timepointOf c'.a) = c.a ↔ _
  rw [← BitVec.toNat_inj, hr]
  simp only [timeSinceEpoch, Config.epochMs]
  omega

end Sys2Proof.Machine
end

section
/-! PROOFS. 41_bitpacker.md R148: the day after a day, in years that begin on 1 March (O46). -/

namespace Sys2Proof.Machine

/-- The month of day `doy` of a March year, 0 for March and 11 for February (41_bitpacker.md R148). -/
def marchMonth (doy : Nat) : Nat := (5 * doy + 2) / 153

/-- The day of a March year on which the month `mp` begins. -/
def monthStart (mp : Nat) : Nat := (153 * mp + 2) / 5

theorem monthOf_eq (doy : Nat) : monthOf doy = if marchMonth doy < 10 then marchMonth doy + 3 else marchMonth doy - 9 :=
  rfl

theorem dayOf_eq (doy : Nat) : dayOf doy = doy - monthStart (marchMonth doy) + 1 := rfl

/-- The month of a day begins on that day or before it. -/
theorem monthStart_marchMonth_le (doy : Nat) : monthStart (marchMonth doy) ≤ doy := by
  unfold monthStart marchMonth
  omega

/-- A day before the next month's first is a day of the same month. -/
theorem marchMonth_succ_of_lt (doy : Nat) (h : doy + 1 < monthStart (marchMonth doy + 1)) :
    marchMonth (doy + 1) = marchMonth doy := by
  unfold monthStart marchMonth at *
  omega

/-- Otherwise the next day is the first of the next month. -/
theorem marchMonth_succ_of_not_lt (doy : Nat) (h : ¬ doy + 1 < monthStart (marchMonth doy + 1)) :
    marchMonth (doy + 1) = marchMonth doy + 1 ∧ monthStart (marchMonth doy + 1) = doy + 1 := by
  unfold monthStart marchMonth at *
  omega

/-- March to January have the lengths of the calendar, in every year. -/
theorem monthDays_of_lt (y mp : Nat) (h : mp < 11) :
    monthDays y (if mp < 10 then mp + 3 else mp - 9) = monthStart (mp + 1) - monthStart mp := by
  interval_cases mp <;> rfl

/-- February has the days of its March year from day 337 on. -/
theorem monthDays_february (era yoe : Nat) : monthDays (yoe + era * 400 + 1) 2 = marchYearDays yoe - 337 := by
  have hl := marchYearDays_le yoe
  rw [monthDays, if_pos rfl, isLeap_march]
  simp only [decide_eq_true_eq]
  split <;> omega

/-- The month of a day of a March year ends with the month's own last day, or with the year. -/
theorem monthDays_civilOf (era yoe doy : Nat) (h : doy < marchYearDays yoe) :
    monthDays (if monthOf doy ≤ 2 then yoe + era * 400 + 1 else yoe + era * 400) (monthOf doy)
      = min (monthStart (marchMonth doy + 1)) (marchYearDays yoe) - monthStart (marchMonth doy) := by
  have hl := marchYearDays_le yoe
  have hmp : marchMonth doy < 12 := by
    unfold marchMonth
    omega
  rw [monthOf_eq]
  generalize marchMonth doy = mp at hmp ⊢
  by_cases hfeb : mp = 11
  · subst hfeb
    have hend : monthStart (11 + 1) = 367 ∧ monthStart 11 = 337 := ⟨rfl, rfl⟩
    rw [hend.1, hend.2, min_eq_right (by omega)]
    exact monthDays_february era yoe
  · rw [monthDays_of_lt _ mp (by omega)]
    unfold monthStart
    omega

theorem nextDay_in_month (y m d : Nat) (h : d < monthDays y m) : nextDay (y, m, d) = (y, m, d + 1) := if_pos h

theorem nextDay_of_month_end (y m d : Nat) (h : ¬ d < monthDays y m) (hm : m < 12) :
    nextDay (y, m, d) = (y, m + 1, 1) :=
  (if_neg h).trans (if_pos hm)

theorem nextDay_of_year_end (y d : Nat) (h : ¬ d < monthDays y 12) : nextDay (y, 12, d) = (y + 1, 1, 1) :=
  (if_neg h).trans (if_neg (by decide))

/-- Within a March year the day after a day is the next day of that year. -/
theorem nextDay_civilOf (era yoe doy : Nat) (h : doy + 1 < marchYearDays yoe) :
    nextDay (civilOf era yoe doy) = civilOf era yoe (doy + 1) := by
  have hl := marchYearDays_le yoe
  have hdays := monthDays_civilOf era yoe doy (by omega)
  have hstart := monthStart_marchMonth_le doy
  rw [civilOf_eq, civilOf_eq]
  by_cases hsame : doy + 1 < monthStart (marchMonth doy + 1)
  · have hmp := marchMonth_succ_of_lt doy hsame
    have hmonth : monthOf (doy + 1) = monthOf doy := by rw [monthOf_eq, hmp, monthOf_eq]
    have hday : dayOf (doy + 1) = dayOf doy + 1 := by
      rw [dayOf_eq, dayOf_eq, hmp]
      omega
    rw [nextDay_in_month _ _ _ (by rw [hdays, dayOf_eq]; omega), hmonth, hday]
  · obtain ⟨hmp, hnext⟩ := marchMonth_succ_of_not_lt doy hsame
    have hend : ¬ dayOf doy
        < monthDays (if monthOf doy ≤ 2 then yoe + era * 400 + 1 else yoe + era * 400) (monthOf doy) := by
      rw [hdays, dayOf_eq]
      omega
    have hday : dayOf (doy + 1) = 1 := by
      rw [dayOf_eq, hmp, hnext]
      omega
    have hlt : marchMonth doy < 11 := by
      unfold marchMonth at *
      unfold monthStart at *
      omega
    rw [hday]
    by_cases hdec : marchMonth doy = 9
    · have hmonth : monthOf doy = 12 ∧ monthOf (doy + 1) = 1 := by simp [monthOf_eq, hmp, hdec]
      rw [hmonth.1] at hend ⊢
      rw [nextDay_of_year_end _ _ hend, hmonth.2]
      rfl
    · have hmonth : monthOf (doy + 1) = monthOf doy + 1 ∧ monthOf doy < 12
          ∧ (monthOf doy + 1 ≤ 2 ↔ monthOf doy ≤ 2) := by
        simp only [monthOf_eq, hmp]
        split <;> split <;> omega
      obtain ⟨hsucc, hlt12, hyear⟩ := hmonth
      rw [nextDay_of_month_end _ _ _ hend hlt12]
      simp only [hsucc, hyear]

theorem civilOf_first (era yoe : Nat) : civilOf era yoe 0 = (yoe + era * 400, 3, 1) := rfl

/-- The day after the last one of a March year is 1 March. -/
theorem nextDay_civilOf_last (era yoe doy : Nat) (h : doy + 1 = marchYearDays yoe) :
    nextDay (civilOf era yoe doy) = (yoe + era * 400 + 1, 3, 1) := by
  have hl := marchYearDays_le yoe
  have hmp : marchMonth doy = 11 := by
    unfold marchMonth
    omega
  have hmonth : monthOf doy = 2 := by simp [monthOf_eq, hmp]
  have hday : dayOf doy = doy - 337 + 1 := by rw [dayOf_eq, hmp, show monthStart 11 = 337 from rfl]
  rw [civilOf_eq, hmonth, if_pos (le_refl 2)]
  exact nextDay_of_month_end _ _ _ (by rw [monthDays_february, hday]; omega) (by decide)

/-- The next March year of an era begins where the year before it ends, and the next era after the year 399. -/
theorem marchYearStart_succ (yoe : Nat) (h : yoe < 400) :
    365 * yoe + yoe / 4 - yoe / 100 + marchYearDays yoe
      = if yoe = 399 then 146097 else 365 * (yoe + 1) + (yoe + 1) / 4 - (yoe + 1) / 100 := by
  unfold marchYearDays
  split <;> split <;> omega

/-- Settles O46: a day is followed by the next day of its March year, and the last day of that year by the first day of
the next one. -/
theorem civilWalksTheGregorianCalendar : Obligations.CivilWalksTheGregorianCalendar := by
  refine ⟨by decide, fun z => ?_⟩
  obtain ⟨era, yoe, doy, hy, hd, hz⟩ := exists_day z
  rw [civil_of_day z era yoe doy hy hd hz]
  obtain hlt | hlast := Nat.lt_or_eq_of_le (Nat.succ_le_of_lt hd)
  · rw [nextDay_civilOf era yoe doy hlt, civil_of_day (z + 1) era yoe (doy + 1) hy hlt (by omega)]
  · have hstart := marchYearStart_succ yoe hy
    rw [nextDay_civilOf_last era yoe doy hlast]
    by_cases h399 : yoe = 399
    · rw [if_pos h399] at hstart
      rw [civil_of_day (z + 1) (era + 1) 0 0 (by decide) (by decide) (by omega), civilOf_first,
        show 0 + (era + 1) * 400 = yoe + era * 400 + 1 by omega]
    · rw [if_neg h399] at hstart
      rw [civil_of_day (z + 1) era (yoe + 1) 0 (by omega) (by have := marchYearDays_le (yoe + 1); omega) (by omega),
        civilOf_first, show yoe + 1 + era * 400 = yoe + era * 400 + 1 by omega]

end Sys2Proof.Machine
end

section
/-! PROOFS. 41_bitpacker.md R149, R150: the text of TIMESTAMP (O45). -/

namespace Sys2Proof.Machine

/-- The separators of a timestamp stand where the layout has them (30_encoding.md R82). -/
theorem iso_separators (t : Nat) : ∀ q ∈ [(4, 0x2D#8), (7, 0x2D#8), (10, 0x54#8), (13, 0x3A#8), (16, 0x3A#8),
    (19, 0x2E#8), (23, 0x5A#8)], (iso t)[q.1]? = some q.2 := by
  rw [iso_eq]
  intro q hq
  fin_cases hq <;> rfl

/-- Every other byte of a timestamp is a decimal digit (30_encoding.md R82). -/
theorem iso_digits (t : Nat) : ∀ j ∈ [0, 1, 2, 3, 5, 6, 8, 9, 11, 12, 14, 15, 17, 18, 20, 21, 22],
    ∃ b, (iso t)[j]? = some b ∧ 0x30 ≤ b.toNat ∧ b.toNat ≤ 0x39 := by
  rw [iso_eq]
  intro j hj
  fin_cases hj <;> exact ⟨asciiDigit _, rfl, asciiDigit_range _⟩

/-- The digits of a timestamp read back are the date and the time of day, for a time of a year of four digits
(41_bitpacker.md R149). -/
theorem iso_readDec (t : Nat) (hy : (civil (t / 86400000)).1 < 10 ^ 4) (hm : (civil (t / 86400000)).2.1 < 10 ^ 2)
    (hd : (civil (t / 86400000)).2.2 < 10 ^ 2) :
    let field := fun (i n : Nat) => readDec (((iso t).drop i).take n)
    civil (t / 86400000) = (field 0 4, field 5 2, field 8 2)
      ∧ field 11 2 = t % 86400000 / 3600000 ∧ field 14 2 = t % 86400000 / 60000 % 60
      ∧ field 17 2 = t % 86400000 / 1000 % 60 ∧ field 20 3 = t % 86400000 % 1000 := by
  obtain ⟨h0, h5, h8, h11, h14, h17, h20⟩ := iso_fields t
  simp only [h0, h5, h8, h11, h14, h17, h20, readDec_dec]
  refine ⟨?_, by omega, by omega, by omega, by omega⟩
  rw [Nat.mod_eq_of_lt hy, Nat.mod_eq_of_lt hm, Nat.mod_eq_of_lt hd]

/-- Settles O45: TIMESTAMP responds with `iso` of the time, whose layout and digits are known. -/
theorem timestampSpellsTheTime : Obligations.TimestampSpellsTheTime := by
  refine ⟨by decide, fun s c hc => ⟨okString (iso (timepointOf c.a)), iso (timepointOf c.a),
    exec_of_pure_of_latched .timestamp s c rfl hc, okString_is _ (by simp), iso_length _, iso_separators _,
    iso_digits _, ?_⟩⟩
  have ha := c.a.isLt
  have ht : timepointOf c.a = c.a.toNat / 2 ^ 20 + 1321009871111 := by
    rw [timepointOf, BitVec.toNat_ushiftRight, Nat.shiftRight_eq_div_pow]
  rw [ht]
  generalize hT : c.a.toNat / 2 ^ 20 + 1321009871111 = T
  obtain ⟨hlo, hhi, hm, hd⟩ := civil_range (T / 86400000) (by omega) (by omega)
  obtain ⟨hdate, h11, h14, h17, h20⟩ := iso_readDec T (by omega) (by omega) (by omega)
  have hyear := congrArg Prod.fst hdate
  dsimp only at hyear h11 h14 h17 h20 ⊢
  rw [hyear] at hlo hhi
  refine ⟨hdate, hlo, hhi, ?_⟩
  rw [h11, h14, h17, h20]
  omega

end Sys2Proof.Machine
end

section
/-! PROOFS. 42_randomness.md R185: the range of RANDOM_BITS (O50). -/

namespace Sys2Proof.Machine

/-- Every number of k bytes is spelled by k bytes (20_memory.md R53). -/
theorem exists_bigEndian (k v : Nat) (h : v < 256 ^ k) : ∃ e : List Byte, e.length = k ∧ bigEndian e = v := by
  induction k generalizing v with
  | zero => exact ⟨[], rfl, (Nat.lt_one_iff.1 h).symm⟩
  | succ k ih =>
    have hpos : 0 < 256 ^ k := Nat.pow_pos (by decide)
    obtain ⟨e, hl, he⟩ := ih (v % 256 ^ k) (Nat.mod_lt _ hpos)
    have hb : v / 256 ^ k < 256 := Nat.div_lt_of_lt_mul (by rwa [← Nat.pow_succ])
    refine ⟨BitVec.ofNat 8 (v / 256 ^ k) :: e, by simp [hl], ?_⟩
    rw [bigEndian, he, hl, BitVec.toNat_ofNat, Nat.mod_eq_of_lt hb]
    exact Nat.div_add_mod' v _

/-- What the invariant says of a waiting RANDOM_BITS: n is at most 64, the bytes asked for are those n bits take, and no
clock sample was taken (42_randomness.md R182). -/
theorem randomBits_of_pending (s : State) (p : Pending) (n : Nat) (h : s.Inv) (hp : s.pending = some p)
    (hd : decode p.cmd.cmd = .ok (.randomBits n)) : n ≤ 64 ∧ p.k = entropyBytes n ∧ p.clk = none := by
  obtain ⟨i, hi, hk, hc⟩ := h.pending_ok p hp
  cases hd.symm.trans hi
  by_cases hn : 64 < n
  · simp [requestOf, hn] at hk
  · rw [requestOf, if_neg hn] at hk
    refine ⟨not_lt.1 hn, (Option.some.inj hk).symm, ?_⟩
    simpa [classOf] using hc

/-- The bytes asked for complete a waiting RANDOM_BITS with their value mod 2^n, which fits R (42_randomness.md R182). -/
theorem answer_randomBits (s : State) (p : Pending) (n : Nat) (e : List Byte) (h : s.Inv) (hp : s.pending = some p)
    (hd : decode p.cmd.cmd = .ok (.randomBits n)) (he : e.length = entropyBytes n) :
    ∃ x, answer p.req (.bytes e) s = .next (complete x s) ∧ x.status = 0#4 ∧ x.r.toNat = bigEndian e % 2 ^ n := by
  obtain ⟨hn, hk, hclk⟩ := randomBits_of_pending s p n h hp hd
  obtain ⟨-, hst, hr, -⟩ := finishRandomBits_is e n he
  refine ⟨_, answer_bytes s p e _ (h.waiting_of_pending p hp) hp (h.pending_open p hp) (he.trans hk.symm) ?_, hst, ?_⟩
  · rw [finish, hd, hclk]
    rfl
  · have hlt : bigEndian e % 2 ^ n < 2 ^ 64 :=
      (Nat.mod_lt _ (Nat.two_pow_pos n)).trans_le (Nat.pow_le_pow_right (by decide) hn)
    rw [hr, BitVec.toNat_ofNat, Nat.mod_eq_of_lt hlt]

/-- Settles O50: the result is the bytes' value mod 2^n, and a value below 2^n is spelled by that many bytes. -/
theorem randomBitsReachesExactlyItsRange : Obligations.RandomBitsReachesExactlyItsRange := by
  intro s p n rest h hp hd
  have hinv := h.withInputs rest
  have hanswer := fun e he => answer_randomBits { s with inputs := rest } p n e hinv hp hd he
  have hpos := Nat.two_pow_pos n
  refine ⟨fun e t ht => ?_, fun v hv => ?_⟩
  · rw [step_withAnswer] at ht
    have he : e.length = entropyBytes n := by
      obtain ⟨hm, -⟩ | ⟨q, x, -, -, hq, -, -, ⟨hx, -⟩ | ⟨e', hx, hl, -⟩⟩ := answer_next_cases _ _ _ t ht
      · exact absurd hm (hinv.pending_open p hp)
      · cases hx
      · cases hx
        cases hp.symm.trans hq
        exact hl.trans (randomBits_of_pending _ p n hinv hp hd).2.1
    obtain ⟨x, hx, hst, hr⟩ := hanswer e he
    cases hx.symm.trans ht
    have hlt := Nat.mod_lt (bigEndian e) hpos
    exact ⟨hst, by rw [complete_resp, hr]; omega⟩
  · have hfit : v < 256 ^ entropyBytes n := by
      refine lt_of_lt_of_le (show v < 2 ^ n by omega) ?_
      rw [show (256 : Nat) = 2 ^ 8 from rfl, ← Nat.pow_mul, entropyBytes]
      exact Nat.pow_le_pow_right (by decide) (by omega)
    obtain ⟨e, hl, he⟩ := exists_bigEndian (entropyBytes n) v hfit
    obtain ⟨x, hx, -, hr⟩ := hanswer e hl
    refine ⟨e, _, hx, ?_⟩
    rw [complete_resp, hr, he, Nat.mod_eq_of_lt (by omega)]

end Sys2Proof.Machine
end
